-- ==== Sys2Proof/Word.lean ====
section
/-! DEFINITION. The words of the engine: widths of 00_scope.md R8, R80 and R83, the lane array of R11, and the two
permutation modes of R2. -/

namespace Sys2Proof

/-- A lane, index, selector, value or counter: 64 bits, unsigned (R8). -/
abbrev Word := BitVec 64

/-- A message byte, or a byte of the table. -/
abbrev Byte := BitVec 8

/-- A command word `cmd[15:0]` (R80). -/
abbrev CmdWord := BitVec 16

/-- The operand bus `opnd[127:0]` presented with a command (R80). -/
abbrev OpndBus := BitVec 128

/-- A digest on the response port, `dig[511:0]` (R83). -/
abbrev DigestWord := BitVec 512

/-- The 25 lanes; lane `x + 5*y` is column x, row y (R11, R22). -/
abbrev Lanes := Vector Word 25

/-- The two modes of the permutation, "an explicit tagged value" (R2). -/
inductive Mode where
  | plain
  | extended
  deriving DecidableEq, Repr

end Sys2Proof
end

