-- ==== Sys2Proof/Config.lean ====
section
/-! DEFINITION. What an implementation fixes: the constants of 00_scope.md R5, the open parameters of R6 in a form that can
hold only well-formed ones (R7), and the values the spec leaves free, as opaque constants. -/

namespace Sys2Proof

/-- 64-bit entries per table page, `PAGE_WORDS = 2^20` (R5). -/
abbrev pageWords : Nat := 1048576

/-- Bytes per persisted page image, `PAGE_BYTES = 2^23` (R5, R57). -/
abbrev pageBytes : Nat := 8388608

/-- The number of rounds of one permutation call, `ROUNDS = 24` (R5). -/
abbrev rounds : Nat := 24

/-- The rate in lanes, `RATE = 9` (R5). -/
abbrev rate : Nat := 9

/-- The domain-separation and padding-start byte, `SUFFIX = 0x06` (R5, R166). -/
abbrev suffixByte : Byte := 0x06

/-- One tier of the reduction function (R6): the exclusive selector bound `LIMIT[k]`, `0 .. 2^64`, and the modulus
`SPACE[k]`, `1 .. 2^64`, stored less one so that a zero modulus cannot be written down (R7). -/
structure Tier where
  limitBound : Fin (2 ^ 64 + 1)
  spaceLessOne : Fin (2 ^ 64)
  deriving DecidableEq, Repr, Inhabited

/-- `LIMIT[k]` (R6). -/
def Tier.limit (t : Tier) : Nat := t.limitBound.val

/-- `SPACE[k]` (R6), at least 1. -/
def Tier.space (t : Tier) : Nat := t.spaceLessOne.val + 1

/-- The open parameters of R6: `SMALL_SPACE` (`1 .. 2^20`, stored less one), the tier table, whose length is `NT`, and
`PAGE_COUNT` (`0 .. 2^44`). Every value of this type is a well-formed configuration (R7). -/
structure Config where
  smallSpaceLessOne : Fin (2 ^ 20)
  tiers : List Tier
  pageCountBound : Fin (2 ^ 44 + 1)
  deriving DecidableEq, Repr, Inhabited

/-- `SMALL_SPACE` (R6), at least 1 and at most 2^20. -/
def Config.smallSpace (c : Config) : Nat := c.smallSpaceLessOne.val + 1

/-- `PAGE_COUNT` (R6), at most 2^44. -/
def Config.pageCount (c : Config) : Nat := c.pageCountBound.val

/-- The configuration of the implementation: R6 gives no number for any parameter, so nothing is known of it but that it is
well formed. DESIGN CHOICE of form only (log 4), safe. -/
opaque Config.implementation : Config

/-- How many engines the system has beside the first: N - 1 for the N >= 1 of R203, left open (log 5), safe. -/
opaque Config.otherEngines : Nat

/-- The unspecified content of TBL (R35, R38, R195): the word at an index, for the n-th time the table became unspecified.
A free value (log 7), safe. -/
opaque Config.unspecifiedWord : Nat → Nat → Word

end Sys2Proof
end

