-- ==== Sys2Proof/Syntax.lean ====
section
/-! DEFINITION. The fourteen commands, one constructor per row of spec/opcode_table.json (30_encoding.md R84), with the
operands the command word carries (R81, R82). Operands of the operand bus are not part of the word and are read from it when the
command executes. -/

namespace Sys2Proof

/-- A command (R84). `b` is the message byte `IMM8`, `l` the lane number `IMM8[4:0]`, `n` the CSR number `IMM8[2:0]`. -/
inductive Instr where
  /-- INIT (R161). -/
  | init
  /-- ABSB.P b (R162). -/
  | absbP (b : Byte)
  /-- ABSB.X b (R163). -/
  | absbX (b : Byte)
  /-- FIN.P (R164). -/
  | finP
  /-- FIN.X (R165). -/
  | finX
  /-- PERM.P (R140). -/
  | permP
  /-- PERM.X (R141). -/
  | permX
  /-- RDLANE l (R169). -/
  | rdlane (l : BitVec 5)
  /-- WRLANE l, data on `opnd[63:0]` (R170). -/
  | wrlane (l : BitVec 5)
  /-- REDUCE, selector and value on the operand bus (R105). -/
  | reduce
  /-- RESOLVE, index on `opnd[63:0]` (R121). -/
  | resolve
  /-- TBLINIT (R116). -/
  | tblinit
  /-- RDCSR n (R171). -/
  | rdcsr (n : BitVec 3)
  /-- TBLRD, index on `opnd[63:0]` (R120). -/
  | tblrd
  deriving DecidableEq, Repr

end Sys2Proof
end

