-- ==== Sys2Proof/WellFormed.lean ====
section
/-! DEFINITION. The checks on syntax: the extra conditions of 30_encoding.md R84 on a command's operands, and the constraints of
00_scope.md R7 on raw configuration numbers. -/

namespace Sys2Proof

/-- A lane number exists when it is at most 24 (R81, R84: `cmd[4:0] <= 24`). -/
def laneExists (l : BitVec 5) : Bool := decide (l.toNat ≤ 24)

/-- A CSR number exists when it is at most 6 (R30, R84: `cmd[2:0] <= 6`). -/
def csrExists (n : BitVec 3) : Bool := decide (n.toNat ≤ 6)

/-- The extra condition of a command's row (R84). -/
def Instr.wf : Instr → Bool
  | .rdlane l => laneExists l
  | .wrlane l => laneExists l
  | .rdcsr n => csrExists n
  | .init => true
  | .absbP _ => true
  | .absbX _ => true
  | .finP => true
  | .finX => true
  | .permP => true
  | .permX => true
  | .reduce => true
  | .resolve => true
  | .tblinit => true
  | .tblrd => true

/-- One tier from its two numbers, refused when it breaks R6: `0 <= LIMIT <= 2^64`, `1 <= SPACE <= 2^64`. -/
def Tier.ofNumbers (limit space : Nat) : Option Tier :=
  if h : limit < 2 ^ 64 + 1 ∧ 1 ≤ space ∧ space ≤ 2 ^ 64 then
    some { limitBound := ⟨limit, h.1⟩, spaceLessOne := ⟨space - 1, by omega⟩ }
  else none

/-- Every tier of a list of (limit, space) pairs, refused when one is. -/
def tiersOfNumbers : List (Nat × Nat) → Option (List Tier)
  | [] => some []
  | (limit, space) :: rest =>
    match Tier.ofNumbers limit space, tiersOfNumbers rest with
    | some t, some ts => some (t :: ts)
    | _, _ => none

/-- A configuration from its numbers, refused when it is not well formed (R7; 93_implementation_defined.md U15). -/
def Config.ofNumbers (smallSpace : Nat) (tiers : List (Nat × Nat)) (pageCount : Nat) : Option Config :=
  if h : (1 ≤ smallSpace ∧ smallSpace ≤ 2 ^ 20) ∧ pageCount < 2 ^ 44 + 1 then
    match tiersOfNumbers tiers with
    | some ts =>
      some { smallSpaceLessOne := ⟨smallSpace - 1, by omega⟩, tiers := ts, pageCountBound := ⟨pageCount, h.2⟩ }
    | none => none
  else none

end Sys2Proof
end

