-- ==== Sys2Proof/Decode.lean ====
section
/-! DEFINITION. The decoder and the encoder of 30_encoding.md: the fields of the command word (R80), the formats (R81), the opcode
map (R84) and the illegal words (R85). The spec has no instruction memory and so no byte order of a command word (R28, R59): a
command is one 16-bit word. -/

namespace Sys2Proof

/-- `OP`, bits 15:12 (R80). -/
def opField (w : CmdWord) : BitVec 4 := w.extractLsb' 12 4

/-- `X`, bit 11 (R80). -/
def xField (w : CmdWord) : Bool := w.getLsbD 11

/-- `Z`, bits 10:8 (R80). -/
def zField (w : CmdWord) : BitVec 3 := w.extractLsb' 8 3

/-- `IMM8`, bits 7:0 (R80). -/
def immField (w : CmdWord) : Byte := w.extractLsb' 0 8

/-- Why a word is illegal: the clauses (a) to (f) of R85. A word to which several clauses apply is named by the first that the
decoder meets (log 10); every one of them raises the same fault. -/
inductive IllegalWord where
  /-- R85 (a): `OP` in 0xB..0xF. -/
  | unassignedOp
  /-- R85 (b): `Z` not 000. -/
  | zNotZero
  /-- R85 (c): `X = 1` on a command without modes. -/
  | modeOnModeless
  /-- R85 (d): `IMM8` not 0 on a command without immediate. -/
  | immediateNotZero
  /-- R85 (e): `IMM8 > 24` on RDLANE or WRLANE. -/
  | laneAbove24
  /-- R85 (f): `IMM8 > 6` on RDCSR. -/
  | csrAbove6
  deriving DecidableEq, Repr

/-- What decoding answers: a command, or the clause of R85 that refuses the word. -/
abbrev Decoded := Except IllegalWord Instr

/-- The formats whose `X` must be 0 (R81: N, L, C, Q). -/
def withoutMode (w : CmdWord) (d : Decoded) : Decoded :=
  if xField w then .error .modeOnModeless else d

/-- The formats whose `IMM8` must be 0x00 (R81: N, M, Q). -/
def withoutImmediate (w : CmdWord) (d : Decoded) : Decoded :=
  if immField w = 0 then d else .error .immediateNotZero

/-- Format L (R81): `IMM8[7:5]` zero and `IMM8[4:0]` a lane number. -/
def withLane (w : CmdWord) (f : BitVec 5 → Instr) : Decoded :=
  if (immField w).toNat ≤ 24 then .ok (f (w.extractLsb' 0 5)) else .error .laneAbove24

/-- Format C (R81): `IMM8[7:3]` zero and `IMM8[2:0]` a CSR number. -/
def withCsr (w : CmdWord) (f : BitVec 3 → Instr) : Decoded :=
  if (immField w).toNat ≤ 6 then .ok (f (w.extractLsb' 0 3)) else .error .csrAbove6

/-- The command an operation number stands for (R84, column `OP`), with its format's checks. -/
def decodeOp (w : CmdWord) : Nat → Decoded
  | 0 => withoutMode w (withoutImmediate w (.ok .init))
  | 1 => .ok (if xField w then .absbX (immField w) else .absbP (immField w))
  | 2 => withoutImmediate w (.ok (if xField w then .finX else .finP))
  | 3 => withoutImmediate w (.ok (if xField w then .permX else .permP))
  | 4 => withoutMode w (withLane w .rdlane)
  | 5 => withoutMode w (withLane w .wrlane)
  | 6 => withoutMode w (withoutImmediate w (.ok .reduce))
  | 7 => withoutMode w (withoutImmediate w (.ok .resolve))
  | 8 => withoutMode w (withoutImmediate w (.ok .tblinit))
  | 9 => withoutMode w (withCsr w .rdcsr)
  | 10 => withoutMode w (withoutImmediate w (.ok .tblrd))
  | _ => .error .unassignedOp

/-- The decoder: total on all 65536 words (R84, R85). -/
def decode (w : CmdWord) : Decoded :=
  if zField w = 0 then decodeOp w (opField w).toNat else .error .zNotZero

/-- The encoder: the word of a command, written from the column "match" of R84 and the operand fields of R81. On a command
that is not well formed it gives a word the decoder refuses. -/
def encode : Instr → CmdWord
  | .init => 0x0000#16
  | .absbP b => 0x10#8 ++ b
  | .absbX b => 0x18#8 ++ b
  | .finP => 0x2000#16
  | .finX => 0x2800#16
  | .permP => 0x3000#16
  | .permX => 0x3800#16
  | .rdlane l => 0x200#11 ++ l
  | .wrlane l => 0x280#11 ++ l
  | .reduce => 0x6000#16
  | .resolve => 0x7000#16
  | .tblinit => 0x8000#16
  | .rdcsr n => 0x1200#13 ++ n
  | .tblrd => 0xA000#16

/-- A row of the opcode map as R84 prints it: a word selects the row when `(cmd & mask) = pattern` and the bits outside the mask
are at most `top`. -/
structure OpcodeRow where
  mnemonic : String
  pattern : CmdWord
  mask : CmdWord
  top : Nat
  deriving DecidableEq, Repr

/-- The selection rule of R84 for one row. -/
def OpcodeRow.selects (r : OpcodeRow) (w : CmdWord) : Bool :=
  w &&& r.mask == r.pattern && decide ((w &&& ~~~r.mask).toNat ≤ r.top)

/-- The opcode map of R84. -/
def opcodeRows : List OpcodeRow :=
  [ ⟨"INIT", 0x0000, 0xFFFF, 0⟩, ⟨"ABSB.P", 0x1000, 0xFF00, 255⟩, ⟨"ABSB.X", 0x1800, 0xFF00, 255⟩,
    ⟨"FIN.P", 0x2000, 0xFFFF, 0⟩, ⟨"FIN.X", 0x2800, 0xFFFF, 0⟩, ⟨"PERM.P", 0x3000, 0xFFFF, 0⟩,
    ⟨"PERM.X", 0x3800, 0xFFFF, 0⟩, ⟨"RDLANE", 0x4000, 0xFFE0, 24⟩, ⟨"WRLANE", 0x5000, 0xFFE0, 24⟩,
    ⟨"REDUCE", 0x6000, 0xFFFF, 0⟩, ⟨"RESOLVE", 0x7000, 0xFFFF, 0⟩, ⟨"TBLINIT", 0x8000, 0xFFFF, 0⟩,
    ⟨"RDCSR", 0x9000, 0xFFF8, 6⟩, ⟨"TBLRD", 0xA000, 0xFFFF, 0⟩ ]

/-- The mnemonic of a command's row (R84). -/
def Instr.mnemonic : Instr → String
  | .init => "INIT"
  | .absbP _ => "ABSB.P"
  | .absbX _ => "ABSB.X"
  | .finP => "FIN.P"
  | .finX => "FIN.X"
  | .permP => "PERM.P"
  | .permX => "PERM.X"
  | .rdlane _ => "RDLANE"
  | .wrlane _ => "WRLANE"
  | .reduce => "REDUCE"
  | .resolve => "RESOLVE"
  | .tblinit => "TBLINIT"
  | .rdcsr _ => "RDCSR"
  | .tblrd => "TBLRD"

/-- The command read from an instruction of `nbits` bits with value `w`, every bit above `nbits` zero: a command is one word of
16 bits (R80, R87), so a value with a bit above bit 15 is no command (log 16). -/
def decodeTableWord (nbits w : Nat) : Option Instr :=
  if w % 2 ^ nbits < 65536 then
    match decode (BitVec.ofNat 16 (w % 2 ^ nbits)) with
    | .ok i => some i
    | .error _ => none
  else none

end Sys2Proof
end

