-- ==== Sys2Proof/Machine/State.lean ====
section
/-! DEFINITION. The state of a system of engines over one table: every piece of state of 10_state.md R20, as plain data, the
events of the command port, the responses of 30_encoding.md R83, and the state after reset (R38). -/

namespace Sys2Proof.Machine

/-- The context registers of one engine, the source's HashContext (R20, R22 to R26, R29). -/
structure Context where
  /-- `S[0..24]` (R22). -/
  lanes : Lanes
  /-- `SAVED`, the sub-word accumulator (R24). -/
  saved : Word
  /-- `BYTEIDX`, the number of bytes in `SAVED`, 0..7 (R25). -/
  byteIdx : BitVec 3
  /-- `CURSOR`, the rate lane of the next completed word, 0..8 (R26). -/
  cursor : BitVec 4
  /-- `SEALED` (R29). -/
  sealed : Bool
  deriving DecidableEq, Repr

/-- One engine: its context and its sticky fault register (R20). -/
structure Engine extends Context where
  /-- `FAULT`, 0 or the code of the fault (R20, 60_exceptions.md R191). -/
  fault : BitVec 3
  deriving DecidableEq, Repr

/-- What a byte of the table that is not listed reads as: an unspecified content, numbered so that each time the table becomes
unspecified gives other free values (R35, R195; log 7), or the computed content, every word the fallback hash of its index
(41_table_and_resolver.md R116). -/
inductive Fill where
  | unspecified (time : Nat)
  | computed
  deriving DecidableEq, Repr

/-- The table `TBL` (R35) as bytes: byte k of `TBL[i]` at address `8*i + k`, the layout of 20_memory.md R57 with the page images
one after another (log 6). A byte that is not listed reads as `fill` says. -/
structure Memory where
  fill : Fill
  cells : List Host.Cell
  deriving DecidableEq, Repr

/-- The state shared by all engines (R20). -/
structure Shared where
  /-- `TBL` (R35). -/
  tbl : Memory
  /-- `TBL_PAGES`, 0 or `PAGE_COUNT` (R34). -/
  tblPages : BitVec 45
  /-- `CNT_CALLS` (R33). -/
  cntCalls : Word
  /-- `CNT_HITS` (R33). -/
  cntHits : Word
  /-- `CNT_MISSES` (R33). -/
  cntMisses : Word
  deriving DecidableEq, Repr

/-- What the host presents for a page at TBLINIT: nothing, or the bytes of a file (41_table_and_resolver.md R117). -/
abbrev PageImage := Option (List Byte)

/-- A command as the host issues it: the engine it is issued to (60_exceptions.md R203), the command word and the operand bus
(30_encoding.md R80), and the draws that TBLINIT uses (41_table_and_resolver.md R116 to R118): the verdict `io_ok` and the image of
page p at position p, absent beyond the list (log 2). -/
structure Command where
  engine : Nat
  word : CmdWord
  opnd : OpndBus
  ioOk : Bool
  images : List PageImage
  deriving DecidableEq, Repr

/-- What can arrive from outside: a command (R28), or the system-wide reset (70_reset_and_hazards.md R220; log 8). -/
inductive PortEvent where
  | command (c : Command)
  | reset
  deriving DecidableEq, Repr

/-- The responses of 30_encoding.md R83. -/
inductive Response where
  /-- `OK`. -/
  | ok
  /-- `DATA64`, 64 bits. -/
  | data64 (v : Word)
  /-- `DIGEST`, 512 bits. -/
  | digest (d : DigestWord)
  /-- `FAULT`, the code of the fault the command raised. -/
  | fault (code : BitVec 3)
  /-- `REFUSED`, the code already in `FAULT`. -/
  | refused (code : BitVec 3)
  deriving DecidableEq, Repr

/-- The four faults of the engine (60_exceptions.md R191). They are taken: the machine goes on to a next state. -/
inductive FaultCode where
  | illegalCmd
  | sealedUse
  | tblRange
  | tblIo
  deriving DecidableEq, Repr

/-- Why the model stops with a fault. -/
inductive Fault where
  /-- Raised by the step for an event addressed to an engine the system does not have: there is no port to issue it on
  (60_exceptions.md R203). Safe: no command of an existing engine ends in it (log 5). -/
  | noSuchEngine
  deriving DecidableEq, Repr

/-- Why the model refuses. -/
inductive Refusal where
  /-- Raised by an arm of exec whose instruction has no meaning yet; no arm does. Safe. -/
  | notModelled (mnemonic : String)
  deriving DecidableEq, Repr

/-- The state of the system. The engines, in the order of their numbers, are `below`, then `eng`, then `above`; `eng` is the one
that executes, or executed last (log 5). -/
structure State where
  /-- The open parameters, fixed for the machine (R21; log 4). -/
  cfg : Config
  /-- The engines with smaller numbers than `eng`. -/
  below : List Engine
  /-- The engine that executes. -/
  eng : Engine
  /-- The engines with greater numbers than `eng`. -/
  above : List Engine
  /-- The shared state (R20). -/
  shared : Shared
  /-- `opnd[127:0]` as presented with the command (30_encoding.md R80). -/
  opnd : OpndBus
  /-- The host's verdict `io_ok` (41_table_and_resolver.md R118). -/
  ioOk : Bool
  /-- The host's page images (41_table_and_resolver.md R117). -/
  images : List PageImage
  /-- The response of the last command, none before the first (30_encoding.md R83; log 3). -/
  resp : Option Response
  /-- The events still to be taken, in order (R28; log 1). -/
  port : List PortEvent
  /-- The model's own counter of unspecified contents (log 7). -/
  freeCount : Nat
  deriving DecidableEq, Repr

/-- The 25 zero lanes. -/
def zeroLanes : Lanes := Vector.replicate 25 0

/-- The context as reset and INIT leave it (R38, 43_sponge_context.md R161). -/
def Context.reset : Context where
  lanes := zeroLanes
  saved := 0
  byteIdx := 0
  cursor := 0
  sealed := false

/-- An engine right after reset (R38). -/
def Engine.reset : Engine where
  toContext := Context.reset
  fault := 0

/-- The shared state right after reset: no page, no count, the table's content unspecified (R38). -/
def Shared.reset : Shared where
  tbl := { fill := .unspecified 0, cells := [] }
  tblPages := 0
  cntCalls := 0
  cntHits := 0
  cntMisses := 0

/-- The system right after reset (R38): every engine and the shared state at the values of R20, nothing on the ports. -/
def State.reset : State where
  cfg := Config.implementation
  below := []
  eng := Engine.reset
  above := List.replicate Config.otherEngines Engine.reset
  shared := Shared.reset
  opnd := 0
  ioOk := true
  images := []
  resp := none
  port := []
  freeCount := 1

end Sys2Proof.Machine
end

