-- ==== Sys2Proof/Machine/Flags.lean ====
section
/-! DEFINITION. The status flags (10_state.md R29) and the control and status registers, which are read-only windows on the state
(R30 to R32). -/

namespace Sys2Proof.Machine

/-- The flag `TBL_READY`, `TBL_PAGES != 0` (R29). -/
def State.tblReady (s : State) : Bool := s.shared.tblPages != 0

/-- The flag `FAULT != 0` of the executing engine (R29). -/
def State.faulted (s : State) : Bool := s.eng.fault != 0

/-- `STATUS`, CSR 0: bit 0 `SEALED`, bit 1 `TBL_READY`, bits 4:2 `FAULT`, the rest 0 (R31). -/
def State.status (s : State) : Word :=
  0#59 ++ s.eng.fault ++ BitVec.ofBool s.tblReady ++ BitVec.ofBool s.eng.sealed

/-- `POS`, CSR 1: bits 3:0 `CURSOR`, bits 6:4 `BYTEIDX`, the rest 0 (R32). -/
def State.pos (s : State) : Word := 0#57 ++ s.eng.byteIdx ++ s.eng.cursor

/-- `PAGES`, CSR 6: `zext64(TBL_PAGES)` (R30). -/
def State.pages (s : State) : Word := s.shared.tblPages.setWidth 64

/-- The value of CSR n (R30); CSR 7 does not exist. -/
def State.csr (s : State) (n : BitVec 3) : Option Word :=
  match n.toNat with
  | 0 => some s.status
  | 1 => some s.pos
  | 2 => some s.eng.saved
  | 3 => some s.shared.cntCalls
  | 4 => some s.shared.cntHits
  | 5 => some s.shared.cntMisses
  | 6 => some s.pages
  | _ => none

end Sys2Proof.Machine
end

