-- ==== Sys2Proof/Machine/Operands.lean ====
section
/-! DEFINITION. Operand assembly (30_encoding.md R81, R82): the halves of the operand bus. The immediates of the command word are operands
of the command as decoded, used as they stand. -/

namespace Sys2Proof.Machine

/-- `opnd[63:0]`: the data of WRLANE, the value of REDUCE, the index of RESOLVE and TBLRD (R81). -/
def State.lowOperand (s : State) : Word := s.opnd.extractLsb' 0 64

/-- `opnd[127:64]`: the selector of REDUCE (R81). -/
def State.highOperand (s : State) : Word := s.opnd.extractLsb' 64 64

end Sys2Proof.Machine
end

