-- ==== Sys2Proof/Machine/Reduction.lean ====
section
/-! DEFINITION. The feedback reduction function of 40_reduction.md (R100 to R104). -/

namespace Sys2Proof.Machine

/-- The unsigned remainder of a word by a modulus of at least 1 (00_scope.md R9). -/
def wordMod (v : Word) (m : Nat) : Word := BitVec.ofNat 64 (v.toNat % m)

/-- The tier walk: the first tier whose limit is above the selector gives the modulus (R102); no tier leaves the value
unreduced (R103). -/
def tierWalk : List Tier → Word → Word → Word
  | [], _, val => val
  | t :: ts, sel, val => if sel.toNat < t.limit then wordMod val t.space else tierWalk ts sel val

/-- `Reduce(sel, val)` (R100): the fast path for a selector in the upper half (R101), else the tier walk. -/
def reduceWord (cfg : Config) (sel val : Word) : Word :=
  if 2 ^ 63 ≤ sel.toNat then wordMod val cfg.smallSpace else tierWalk cfg.tiers sel val

end Sys2Proof.Machine
end

