-- ==== Sys2Proof/Machine/Bytes.lean ====
section
/-! DEFINITION. Operators on 64-bit words (00_scope.md R9) and the little-endian byte layouts (20_memory.md R54, R56, R59). -/

namespace Sys2Proof.Machine

/-- `ROL64(a, n)` for `0 <= n <= 63` (R9). -/
def rol64 (a : Word) (n : Nat) : Word :=
  if n = 0 then a else (a <<< n) ||| (a >>> (64 - n))

/-- `zext64(b)` of a byte (R9). -/
def zext64 (b : Byte) : Word := b.setWidth 64

/-- Byte k of a word, `v[8*k+7 : 8*k]` (R56). -/
def byteOf (v : Word) (k : Nat) : Byte := v.extractLsb' (8 * k) 8

/-- `LE8(v)`, least significant byte first (R56). -/
def le8 (v : Word) : List Byte :=
  [byteOf v 0, byteOf v 1, byteOf v 2, byteOf v 3, byteOf v 4, byteOf v 5, byteOf v 6, byteOf v 7]

/-- `LE8inv`, the word whose byte k is `b k` (R56). -/
def le8inv (b : Nat → Byte) : Word :=
  b 7 ++ b 6 ++ b 5 ++ b 4 ++ b 3 ++ b 2 ++ b 1 ++ b 0

/-- Lane i of the array (R11); there is no lane above 24. -/
def lane (a : Lanes) (i : Nat) : Word := a.toList.getD i 0

/-- `S[i] <- v` (R10). -/
def setLane (a : Lanes) (i : Nat) (v : Word) : Lanes := a.setIfInBounds i v

/-- `S[i] <- S[i] ^ v`. -/
def xorLane (a : Lanes) (i : Nat) (v : Word) : Lanes := setLane a i (lane a i ^^^ v)

/-- The 200-byte little-endian serialization of the lanes (R54): lane 0 first, each lane least significant byte first. -/
def serialize (a : Lanes) : List Byte := a.toList.flatMap le8

/-- Digest byte k of a digest on the response port, `dig[8*k+7 : 8*k]` (30_encoding.md R83). -/
def digestByte (d : DigestWord) (k : Nat) : Byte := d.extractLsb' (8 * k) 8

end Sys2Proof.Machine
end

