-- ==== Sys2Proof/Machine/Keccak.lean ====
section
/-! DEFINITION. The Plain permutation of 42_permutation.md: the five step mappings (R131 to R135), the round (R137) and the 24 rounds
(R139, Plain). -/

namespace Sys2Proof.Machine

/-- The lane at column x, row y: `A[x + 5*y]` (R130). -/
def laneAt (a : Lanes) (x y : Nat) : Word := lane a (x + 5 * y)

/-- The array whose lane at column x, row y is `f x y` (R130). -/
def fromColumnsRows (f : Nat → Nat → Word) : Lanes :=
  #v[f 0 0, f 1 0, f 2 0, f 3 0, f 4 0, f 0 1, f 1 1, f 2 1, f 3 1, f 4 1, f 0 2, f 1 2, f 2 2, f 3 2, f 4 2,
     f 0 3, f 1 3, f 2 3, f 3 3, f 4 3, f 0 4, f 1 4, f 2 4, f 3 4, f 4 4]

/-- `C[x]`, the parity of column x (R131). -/
def columnParity (a : Lanes) (x : Nat) : Word :=
  laneAt a x 0 ^^^ laneAt a x 1 ^^^ laneAt a x 2 ^^^ laneAt a x 3 ^^^ laneAt a x 4

/-- `D[x]` (R131). -/
def thetaMask (a : Lanes) (x : Nat) : Word :=
  columnParity a ((x + 4) % 5) ^^^ rol64 (columnParity a ((x + 1) % 5)) 1

/-- THETA (R131). -/
def theta (a : Lanes) : Lanes := fromColumnsRows fun x y => laneAt a x y ^^^ thetaMask a x

/-- The first line of the table of R132: `RHO[0..12]`. -/
def rhoOffsetsTo12 : List Nat := [0, 1, 62, 28, 27, 36, 44, 6, 55, 20, 3, 10, 43]

/-- The second line of the table of R132: `RHO[13..24]`. -/
def rhoOffsetsFrom13 : List Nat := [25, 39, 41, 45, 15, 21, 8, 18, 2, 61, 56, 14]

/-- `RHO[i]` (R132). -/
def rhoOffset (i : Nat) : Nat :=
  if i < 13 then rhoOffsetsTo12.getD i 0 else rhoOffsetsFrom13.getD (i - 13) 0

/-- RHO (R132). -/
def rho (a : Lanes) : Lanes := fromColumnsRows fun x y => rol64 (laneAt a x y) (rhoOffset (x + 5 * y))

/-- PI (R133). -/
def pi (a : Lanes) : Lanes := fromColumnsRows fun x y => laneAt a ((x + 3 * y) % 5) x

/-- CHI (R134). -/
def chi (a : Lanes) : Lanes :=
  fromColumnsRows fun x y => laneAt a x y ^^^ (~~~ laneAt a ((x + 1) % 5) y &&& laneAt a ((x + 2) % 5) y)

/-- The table of R135 row by row as it is printed, `RC[r]` beside `RC[r + 12]`. -/
def roundConstantRows : List (Word × Word) :=
  [(0x0000000000000001, 0x000000008000808B),
   (0x0000000000008082, 0x800000000000008B),
   (0x800000000000808A, 0x8000000000008089),
   (0x8000000080008000, 0x8000000000008003),
   (0x000000000000808B, 0x8000000000008002),
   (0x0000000080000001, 0x8000000000000080),
   (0x8000000080008081, 0x000000000000800A),
   (0x8000000000008009, 0x800000008000000A),
   (0x000000000000008A, 0x8000000080008081),
   (0x0000000000000088, 0x8000000000008080),
   (0x0000000080008009, 0x0000000080000001),
   (0x000000008000000A, 0x8000000080008008)]

/-- `RC[r]` (R135): the left half of the table for the first twelve rounds, the right half for the last twelve. -/
def roundConstant (r : Nat) : Word :=
  if r < 12 then (roundConstantRows.getD r (0, 0)).1 else (roundConstantRows.getD (r - 12) (0, 0)).2

/-- IOTA (R135). -/
def iota (a : Lanes) (r : Nat) : Lanes := xorLane a 0 (roundConstant r)

/-- The Plain round: Theta, Rho, Pi, Chi, Iota in this order (R137). -/
def keccakRound (a : Lanes) (r : Nat) : Lanes := iota (chi (pi (rho (theta a)))) r

/-- The first `n` Plain rounds. -/
def plainRounds (n : Nat) (a : Lanes) : Lanes := (List.range n).foldl keccakRound a

/-- `KeccakP(A, Plain)`, Keccak-f[1600] (R139, R143). -/
def keccakPlain (a : Lanes) : Lanes := plainRounds rounds a

end Sys2Proof.Machine
end

