-- ==== Sys2Proof/Machine/Sponge.lean ====
section
/-! DEFINITION. The sponge context operations of 43_sponge_context.md (R166, R167, R172 to R174), over any permutation: the engine's own
in either mode, which also moves the shared state, and the Plain one of the fallback hash, which has registers of its own (R36).
`σ` is what the permutation carries beside the lanes. -/

namespace Sys2Proof.Machine

/-- A permutation call: the lanes, and what it carries beside them. -/
abbrev Perm (σ : Type) := Lanes → σ → Lanes × σ

/-- `AbsorbByte` (R173). The values 8 of `BYTEIDX` and 9 of `CURSOR` exist only inside the transition (R25, R26). -/
def absorbByte {σ : Type} (perm : Perm σ) (b : Byte) (c : Context) (x : σ) : Context × σ :=
  let acc := c.saved ||| (zext64 b <<< (8 * c.byteIdx.toNat))
  if c.byteIdx.toNat + 1 = 8 then
    let folded := xorLane c.lanes c.cursor.toNat acc
    if c.cursor.toNat + 1 = rate then
      let permuted := perm folded x
      ({ c with lanes := permuted.1, saved := 0, byteIdx := 0, cursor := 0 }, permuted.2)
    else ({ c with lanes := folded, saved := 0, byteIdx := 0, cursor := c.cursor + 1 }, x)
  else ({ c with saved := acc, byteIdx := c.byteIdx + 1 }, x)

/-- The bytes of a message absorbed one after another (R172, R173). -/
def absorbBytes {σ : Type} (perm : Perm σ) : List Byte → Context → σ → Context × σ
  | [], c, x => (c, x)
  | b :: bs, c, x => absorbBytes perm bs (absorbByte perm b c x).1 (absorbByte perm b c x).2

/-- The padding terminator, bit 63 of lane 8 (R166 (c)). -/
abbrev padTerminator : Word := 0x8000000000000000

/-- `Pad` (R166): the pending bytes and the suffix byte into lane `CURSOR`, the terminator into lane 8. -/
def pad (c : Context) : Lanes :=
  xorLane (xorLane c.lanes c.cursor.toNat (c.saved ^^^ (zext64 suffixByte <<< (8 * c.byteIdx.toNat)))) 8 padTerminator

/-- `Digest(A)` on the response port: lanes 0 to 7, `dig[64*j+63 : 64*j] = A[j]` (R167, 30_encoding.md R83). -/
def digest (a : Lanes) : DigestWord :=
  lane a 7 ++ lane a 6 ++ lane a 5 ++ lane a 4 ++ lane a 3 ++ lane a 2 ++ lane a 1 ++ lane a 0

/-- `Finalize` (R174) without its result, which is the digest of the lanes it leaves: pad, permute, seal. -/
def finalize {σ : Type} (perm : Perm σ) (c : Context) (x : σ) : Context × σ :=
  let permuted := perm (pad c) x
  ({ c with lanes := permuted.1, sealed := true }, permuted.2)

/-- `DigestOf(msg, mode)` (R172): the context rules on fresh registers. -/
def digestOf {σ : Type} (perm : Perm σ) (msg : List Byte) (x : σ) : DigestWord × σ :=
  let absorbed := absorbBytes perm msg Context.reset x
  let final := finalize perm absorbed.1 absorbed.2
  (digest final.1.lanes, final.2)

/-- The Plain permutation, which carries nothing (R139). -/
def plainPerm : Perm Unit := fun a x => (keccakPlain a, x)

/-- `PlainDigest(msg)`, SHA3-512 (R172, 42_permutation.md R143). -/
def plainDigest (msg : List Byte) : DigestWord := (digestOf plainPerm msg ()).1

end Sys2Proof.Machine
end

