-- ==== Sys2Proof/Machine/FallbackHash.lean ====
section
/-! DEFINITION. The fallback hash of 41_table_and_resolver.md (R110 to R113). -/

namespace Sys2Proof.Machine

/-- The fallback buffer: `LE8(i)` 32 times, 256 bytes (20_memory.md R58). -/
def fallbackBuffer (i : Word) : List Byte := (List.replicate 32 (le8 i)).flatten

/-- Word j of a digest, `LE8inv(dig[8*j .. 8*j+7])` (R111). -/
def digestWord (d : DigestWord) (j : Nat) : Word := le8inv fun k => digestByte d (8 * j + k)

/-- `Fold(dig)`: the exclusive or of the eight words of a digest (R111). -/
def fold (d : DigestWord) : Word :=
  digestWord d 0 ^^^ digestWord d 1 ^^^ digestWord d 2 ^^^ digestWord d 3 ^^^ digestWord d 4 ^^^ digestWord d 5 ^^^
    digestWord d 6 ^^^ digestWord d 7

/-- The non-zero forcing (R112). -/
def forceNonZero (v : Word) : Word := if v = 0 then 1 else v

/-- `FallbackHash(i)` (R110), always Plain (R113). -/
def fallbackHash (i : Word) : Word := forceNonZero (fold (plainDigest (fallbackBuffer i)))

end Sys2Proof.Machine
end

