-- ==== Sys2Proof/Machine/Table.lean ====
section
/-! DEFINITION. The table memory: what an unlisted byte reads as, reading and writing in the one canonical form, `TblRead`
(20_memory.md R51 to R53), and the construction that TBLINIT performs (41_table_and_resolver.md R116, R117, R119). -/

namespace Sys2Proof.Machine

/-- The word at an index none of whose bytes is listed: a free value while the content is unspecified (R35, log 7), the fallback
hash of the index once computed (R116). -/
def unlistedWord : Fill → Nat → Word
  | .unspecified time, i => Config.unspecifiedWord time i
  | .computed, i => fallbackHash (BitVec.ofNat 64 i)

/-- What an unlisted byte reads as: byte `addr mod 8` of the word at index `addr div 8`. -/
def unlistedByte (f : Fill) (addr : Nat) : Byte := byteOf (unlistedWord f (addr / 8)) (addr % 8)

/-- The byte listed at an address, if one is. -/
def listedByte : List Host.Cell → Nat → Option Byte
  | [], _ => none
  | cell :: rest, addr => if cell.1 = addr then some cell.2 else listedByte rest addr

/-- One byte of the table. -/
def Memory.readByte (m : Memory) (addr : Nat) : Byte := (listedByte m.cells addr).getD (unlistedByte m.fill addr)

/-- The word whose byte k is the listed byte at `8*i + k`, or byte k of `w` where none is listed. -/
def overlayWord (cells : List Host.Cell) (i : Nat) (w : Word) : Word :=
  le8inv fun k => (listedByte cells (8 * i + k)).getD (byteOf w k)

/-- `TBL[i]`, the little-endian word of its 8 bytes (R57, R59). -/
def Memory.readWord (m : Memory) (i : Nat) : Word := overlayWord m.cells i (unlistedWord m.fill i)

/-- The list with no byte at `addr`. -/
def eraseCell : List Host.Cell → Nat → List Host.Cell
  | [], _ => []
  | cell :: rest, addr => if cell.1 = addr then rest else cell :: eraseCell rest addr

/-- The list with byte `b` at `addr`, in rising order of addresses. -/
def insertCell : List Host.Cell → Nat → Byte → List Host.Cell
  | [], addr, b => [(addr, b)]
  | cell :: rest, addr, b =>
    if addr < cell.1 then (addr, b) :: cell :: rest
    else if addr = cell.1 then (addr, b) :: rest
    else cell :: insertCell rest addr b

/-- Writing one byte, keeping the canonical form: writing what an unlisted byte reads as removes the entry. -/
def Memory.writeByte (m : Memory) (addr : Nat) (b : Byte) : Memory :=
  if b = unlistedByte m.fill addr then { m with cells := eraseCell m.cells addr }
  else { m with cells := insertCell m.cells addr b }

/-- The canonical form: addresses strictly rising, no entry equal to what an unlisted byte reads as. -/
abbrev Memory.wf (m : Memory) : Prop :=
  m.cells.Pairwise (fun c d => c.1 < d.1) ∧ ∀ c ∈ m.cells, c.2 ≠ unlistedByte m.fill c.1

/-- Bytes written one after another from an address on. -/
def Memory.writeBytes (m : Memory) : Nat → List Byte → Memory
  | _, [] => m
  | addr, b :: bs => (m.writeByte addr b).writeBytes (addr + 1) bs

/-- A page image is used when it is present and exactly `2^23` bytes long; any other is treated as absent (R116, R119). -/
def usableImage : PageImage → Option (List Byte)
  | none => none
  | some bytes => if bytes.length = pageBytes then some bytes else none

/-- Loading the usable images of the pages from `p` on, verbatim (R116, R117): image byte b of page p is the table's byte
`p * 2^23 + b` (R57). A page without a usable image keeps the computed content. -/
def Memory.loadPages (m : Memory) : Nat → List PageImage → Memory
  | _, [] => m
  | p, image :: rest =>
    match usableImage image with
    | some bytes => (m.writeBytes (pageBytes * p) bytes).loadPages (p + 1) rest
    | none => m.loadPages (p + 1) rest

/-- The table every entry of which is the fallback hash of its index. -/
def Memory.computed : Memory where
  fill := .computed
  cells := []

/-- The table that a successful TBLINIT leaves (R116): for each page below `PAGE_COUNT`, its usable image or the fallback hashes
of its indices. -/
def buildTable (pageCount : Nat) (images : List PageImage) : Memory :=
  Memory.computed.loadPages 0 (images.take pageCount)

/-- The covered range: `i < TBL_PAGES * 2^20`, on unbounded integers (20_memory.md R52). -/
def Shared.covers (sh : Shared) (i : Nat) : Bool := decide (i < pageWords * sh.tblPages.toNat)

/-- `TblRead(i)`, for an index in the covered range (20_memory.md R53). -/
def Shared.tblRead (sh : Shared) (i : Word) : Word := sh.tbl.readWord i.toNat

end Sys2Proof.Machine
end

