-- ==== Sys2Proof/Machine/Resolver.lean ====
section
/-! DEFINITION. The resolver (41_table_and_resolver.md R114), the feedback step (42_permutation.md R138) and the permutation in both
modes (R139). -/

namespace Sys2Proof.Machine

/-- One call that hits (R114): the calls and the hits counted, both modulo 2^64 (10_state.md R33). -/
def Shared.countHit (sh : Shared) : Shared :=
  { sh with cntCalls := sh.cntCalls + 1, cntHits := sh.cntHits + 1 }

/-- One call that misses (R114): the calls and the misses counted, both modulo 2^64 (10_state.md R33). -/
def Shared.countMiss (sh : Shared) : Shared :=
  { sh with cntCalls := sh.cntCalls + 1, cntMisses := sh.cntMisses + 1 }

/-- `Resolve(i)` (R114): the table in the covered range, the fallback hash elsewhere. -/
def resolveIndex (i : Word) (sh : Shared) : Word × Shared :=
  if sh.covers i.toNat then (sh.tblRead i, sh.countHit) else (fallbackHash i, sh.countMiss)

/-- `Fbk(A)` (42_permutation.md R138): selector lane 1, value lane 0. -/
def feedback (cfg : Config) (a : Lanes) (sh : Shared) : Lanes × Shared :=
  let resolved := resolveIndex (reduceWord cfg (lane a 1) (lane a 0)) sh
  (xorLane a 0 resolved.1, resolved.2)

/-- One round in Extended mode: the Plain round, then the feedback step (R139). -/
def extendedRound (cfg : Config) (x : Lanes × Shared) (r : Nat) : Lanes × Shared :=
  feedback cfg (keccakRound x.1 r) x.2

/-- The first `n` rounds in Extended mode. -/
def extendedRounds (cfg : Config) (n : Nat) (a : Lanes) (sh : Shared) : Lanes × Shared :=
  (List.range n).foldl (extendedRound cfg) (a, sh)

/-- `KeccakP(A, mode)` (R139), the mode being the `X` bit of the command. -/
def keccakP (cfg : Config) : Mode → Perm Shared
  | .plain, a, sh => (keccakPlain a, sh)
  | .extended, a, sh => extendedRounds cfg rounds a sh

/-- `ExtendedDigest(msg)` (43_sponge_context.md R172). -/
def extendedDigest (cfg : Config) (msg : List Byte) (sh : Shared) : DigestWord × Shared :=
  digestOf (keccakP cfg .extended) msg sh

end Sys2Proof.Machine
end

