-- ==== Sys2Proof/Machine/Ops.lean ====
section
/-! DEFINITION. The operations every meaning is made of: responding, raising and refusing a fault, the checks of 60_exceptions.md R197,
writing the context and the shared state, the permutation and the context operations on the executing engine, the reset event, and
taking an event from the port. -/

namespace Sys2Proof.Machine

/-- What executing answers. -/
abbrev Result := Host.Outcome State Fault Refusal

/-- `respond(kind, value)` (30_encoding.md R83). -/
def State.respond (s : State) (r : Response) : State := { s with resp := some r }

/-- A command that ends with its response in the state it leaves. -/
def answer (s : State) (r : Response) : Result := .next (s.respond r)

/-- The context of the executing engine replaced. -/
def State.withContext (s : State) (c : Context) : State := { s with eng := { s.eng with toContext := c } }

/-- The shared state replaced. -/
def State.withShared (s : State) (sh : Shared) : State := { s with shared := sh }

/-- The fault register of the executing engine replaced. -/
def State.withFault (s : State) (code : BitVec 3) : State := { s with eng := { s.eng with fault := code } }

/-- The code of a fault (60_exceptions.md R191). -/
def FaultCode.code : FaultCode → BitVec 3
  | .illegalCmd => 1
  | .sealedUse => 2
  | .tblRange => 3
  | .tblIo => 4

/-- `raise Fault(code)` (60_exceptions.md R190), the one way of taking an exception: `FAULT` holds the code, the command responds
`FAULT`, nothing else is saved and control goes nowhere. There is no return from it but reset (R199). -/
def raiseFault (f : FaultCode) (s : State) : Result := answer (s.withFault f.code) (.fault f.code)

/-- The sticky refusal (60_exceptions.md R196): no state changes, the response is `REFUSED` with the code in `FAULT`. -/
def refuseFaulted (s : State) : Result := answer s (.refused s.eng.fault)

/-- Check (1) of R197, for every command but RDCSR and RDLANE. -/
def unlessFaulted (s : State) (r : Result) : Result := if s.faulted then refuseFaulted s else r

/-- Checks (1) and (3) of R197 for the seven commands that a sealed context refuses (60_exceptions.md R193, 43_sponge_context.md R176). -/
def unlessSealed (s : State) (r : Result) : Result :=
  unlessFaulted s (if s.eng.sealed then raiseFault .sealedUse s else r)

/-- An illegal command (60_exceptions.md R192): refused on a faulted engine, else `ILLEGAL_CMD` (R197). -/
def illegalCommand (s : State) : Result := unlessFaulted s (raiseFault .illegalCmd s)

/-- `S <- KeccakP(S, mode)` on the executing engine (42_permutation.md R139). -/
def State.permute (s : State) (m : Mode) : State :=
  let permuted := keccakP s.cfg m s.eng.lanes s.shared
  (s.withContext { s.eng.toContext with lanes := permuted.1 }).withShared permuted.2

/-- `AbsorbByte(b, mode)` on the executing engine (43_sponge_context.md R173). -/
def State.absorb (s : State) (m : Mode) (b : Byte) : State :=
  let absorbed := absorbByte (keccakP s.cfg m) b s.eng.toContext s.shared
  (s.withContext absorbed.1).withShared absorbed.2

/-- `Finalize(mode)` on the executing engine (43_sponge_context.md R174); its result is the digest of the lanes it leaves. -/
def State.finalize (s : State) (m : Mode) : State :=
  let final := Machine.finalize (keccakP s.cfg m) s.eng.toContext s.shared
  (s.withContext final.1).withShared final.2

/-- `S[l] <- v` on the executing engine (R170). -/
def State.writeLane (s : State) (l : Nat) (v : Word) : State :=
  s.withContext { s.eng.toContext with lanes := setLane s.eng.lanes l v }

/-- The table built and all its pages covered: what TBLINIT leaves when `io_ok` is true (41_table_and_resolver.md R116). -/
def State.tableBuilt (s : State) : State :=
  s.withShared { s.shared with
    tbl := buildTable s.cfg.pageCount s.images
    tblPages := BitVec.ofNat 45 s.cfg.pageCount }

/-- No page covered and the content of TBL unspecified, a fresh free value for every entry: what TBLINIT leaves before it raises
`TBL_IO` (41_table_and_resolver.md R116, R118; log 7). -/
def State.tableLost (s : State) : State :=
  { s with
    shared := { s.shared with tbl := { fill := .unspecified s.freeCount, cells := [] }, tblPages := 0 }
    freeCount := s.freeCount + 1 }

/-- The reset event (70_reset_and_hazards.md R220): every engine and the shared state at the values of 10_state.md R38, the
content of TBL unspecified anew; the configuration and the number of engines stay, and so do the events still to come. -/
def State.systemReset (s : State) (rest : List PortEvent) : State :=
  { s with
    below := s.below.map fun _ => Engine.reset
    eng := Engine.reset
    above := s.above.map fun _ => Engine.reset
    shared := { Shared.reset with tbl := { fill := .unspecified s.freeCount, cells := [] } }
    opnd := 0
    ioOk := true
    images := []
    resp := none
    port := rest
    freeCount := s.freeCount + 1 }

/-- All engines of the system, in the order of their numbers (60_exceptions.md R203). -/
def State.engines (s : State) : List Engine := s.below ++ s.eng :: s.above

/-- A command taken from the port (30_encoding.md R80): its engine executes next, its operand bus and its draws are presented.
None when the system has no engine of that number. -/
def State.accept (s : State) (c : Command) (rest : List PortEvent) : Option State :=
  match s.engines.drop c.engine with
  | [] => none
  | e :: es =>
    some { s with
      below := s.engines.take c.engine
      eng := e
      above := es
      opnd := c.opnd
      ioOk := c.ioOk
      images := c.images
      port := rest }

end Sys2Proof.Machine
end

