-- ==== Sys2Proof/Machine/AccessCommands.lean ====
section
/-! DEFINITION. The meanings of RDLANE, WRLANE and RDCSR (43_sponge_context.md R169 to R171). RDLANE and RDCSR execute on a faulted engine
(60_exceptions.md R196). A lane above 24 or a CSR above 6 is no such command but an illegal one (30_encoding.md R85; log 9). -/

namespace Sys2Proof.Machine

/-- RDLANE l (R169). -/
def execRdlane (l : BitVec 5) (s : State) : Result :=
  if laneExists l then answer s (.data64 (lane s.eng.lanes l.toNat)) else illegalCommand s

/-- WRLANE l, v (R170): the data overwrites the lane. -/
def execWrlane (l : BitVec 5) (s : State) : Result :=
  if laneExists l then unlessSealed s (answer (s.writeLane l.toNat s.lowOperand) .ok) else illegalCommand s

/-- RDCSR n (R171). -/
def execRdcsr (n : BitVec 3) (s : State) : Result :=
  match s.csr n with
  | some v => answer s (.data64 v)
  | none => illegalCommand s

end Sys2Proof.Machine
end

