-- ==== Sys2Proof/Machine/ContextCommands.lean ====
section
/-! DEFINITION. The meanings of INIT, ABSB.P, ABSB.X, FIN.P and FIN.X (43_sponge_context.md R161 to R165). -/

namespace Sys2Proof.Machine

/-- INIT (R161): the whole context zero, unsealed; legal sealed or not; `FAULT` and the shared state stay. -/
def execInit (s : State) : Result := unlessFaulted s (answer (s.withContext Context.reset) .ok)

/-- ABSB.P b (R162). -/
def execAbsbP (b : Byte) (s : State) : Result := unlessSealed s (answer (s.absorb .plain b) .ok)

/-- ABSB.X b (R163). -/
def execAbsbX (b : Byte) (s : State) : Result := unlessSealed s (answer (s.absorb .extended b) .ok)

/-- FIN.P (R164). -/
def execFinP (s : State) : Result :=
  let t := s.finalize .plain
  unlessSealed s (answer t (.digest (digest t.eng.lanes)))

/-- FIN.X (R165). -/
def execFinX (s : State) : Result :=
  let t := s.finalize .extended
  unlessSealed s (answer t (.digest (digest t.eng.lanes)))

end Sys2Proof.Machine
end

