-- ==== Sys2Proof/Machine/PermCommands.lean ====
section
/-! DEFINITION. The meanings of PERM.P and PERM.X (42_permutation.md R140, R141). -/

namespace Sys2Proof.Machine

/-- PERM.P (R140). -/
def execPermP (s : State) : Result := unlessSealed s (answer (s.permute .plain) .ok)

/-- PERM.X (R141). -/
def execPermX (s : State) : Result := unlessSealed s (answer (s.permute .extended) .ok)

end Sys2Proof.Machine
end

