-- ==== Sys2Proof/Machine/TableCommands.lean ====
section
/-! DEFINITION. The meanings of REDUCE (40_reduction.md R105), RESOLVE, TBLINIT and TBLRD (41_table_and_resolver.md R121, R116,
R120). None of them looks at `SEALED`. -/

namespace Sys2Proof.Machine

/-- REDUCE (R105). -/
def execReduce (s : State) : Result :=
  unlessFaulted s (answer s (.data64 (reduceWord s.cfg s.highOperand s.lowOperand)))

/-- RESOLVE (R121). -/
def execResolve (s : State) : Result :=
  let resolved := resolveIndex s.lowOperand s.shared
  unlessFaulted s (answer (s.withShared resolved.2) (.data64 resolved.1))

/-- TBLINIT (R116): the host's verdict is tested first (R118; 92_eei_decisions.md D37). -/
def execTblinit (s : State) : Result :=
  unlessFaulted s (if s.ioOk then answer s.tableBuilt .ok else raiseFault .tblIo s.tableLost)

/-- TBLRD (R120): the range is tested before the read; no counter moves. -/
def execTblrd (s : State) : Result :=
  unlessFaulted s
    (if s.shared.covers s.lowOperand.toNat then answer s (.data64 (s.shared.tblRead s.lowOperand))
     else raiseFault .tblRange s)

end Sys2Proof.Machine
end

