-- ==== Sys2Proof/Machine/Dispatch.lean ====
section
/-! DEFINITION. exec: one arm per command, one direct call of its meaning. -/

namespace Sys2Proof.Machine

def exec (i : Instr) (s : State) : Host.Outcome State Fault Refusal :=
  match i with
  | .init => Sys2Proof.Machine.execInit s
  | .absbP b => Sys2Proof.Machine.execAbsbP b s
  | .absbX b => Sys2Proof.Machine.execAbsbX b s
  | .finP => Sys2Proof.Machine.execFinP s
  | .finX => Sys2Proof.Machine.execFinX s
  | .permP => Sys2Proof.Machine.execPermP s
  | .permX => Sys2Proof.Machine.execPermX s
  | .rdlane l => Sys2Proof.Machine.execRdlane l s
  | .wrlane l => Sys2Proof.Machine.execWrlane l s
  | .reduce => Sys2Proof.Machine.execReduce s
  | .resolve => Sys2Proof.Machine.execResolve s
  | .tblinit => Sys2Proof.Machine.execTblinit s
  | .rdcsr n => Sys2Proof.Machine.execRdcsr n s
  | .tblrd => Sys2Proof.Machine.execTblrd s

end Sys2Proof.Machine
end

