-- ==== Sys2Proof/Machine/Execute.lean ====
section
/-! DEFINITION. Taking the next event of the command port: what stands in for a fetch (10_state.md R28; log 1). -/

namespace Sys2Proof.Machine

/-- A command word on the executing engine (60_exceptions.md R197): an illegal word, or the command it decodes to. -/
def execWord (w : CmdWord) (s : State) : Result :=
  match decode w with
  | .ok i => exec i s
  | .error _ => illegalCommand s

/-- A command event: its engine takes the command and executes it to completion (70_reset_and_hazards.md R229). -/
def executeCommand (c : Command) (rest : List PortEvent) (s : State) : Result :=
  match s.accept c rest with
  | some t => execWord c.word t
  | none => .fault .noSuchEngine

/-- The next event: with nothing on the port the engines are idle and hold their state (60_exceptions.md R202); a reset event resets
the system (70_reset_and_hazards.md R220). -/
def takeEvent (s : State) : Result :=
  match s.port with
  | [] => .next s
  | .reset :: rest => .next (s.systemReset rest)
  | .command c :: rest => executeCommand c rest s

/-- The event that stands for an instruction of `nbits` bits with value `w`: a command for the engine that executed last, its
operand bus zero, the host's draws the idle ones (log 1, log 16). -/
def State.wordEvent (s : State) (nbits w : Nat) : PortEvent :=
  .command { engine := s.below.length, word := BitVec.ofNat 16 (w % 2 ^ nbits), opnd := 0, ioOk := true, images := [] }

end Sys2Proof.Machine
end

