-- ==== Sys2Proof/Machine/Step.lean ====
section
/-! DEFINITION. The step of the system, and placing an instruction where the next step takes it. -/

namespace Sys2Proof.Machine

/-- One step: the next event of the command port is taken (log 1). -/
def step (s : State) : Host.Outcome State Fault Refusal := takeEvent s

/-- `s` with an instruction placed first on the command port, so that the next step takes exactly it. -/
def State.withFetchWord (s : State) (nbits w : Nat) : State := { s with port := s.wordEvent nbits w :: s.port }

end Sys2Proof.Machine
end

