-- ==== Sys2Proof/Safety.lean ====
section
/-! DEFINITION. What statements about the machine are said in: the states that may execute a command, the invariant of the state that the
rules of 10_state.md and 60_exceptions.md give, and the premise TableCorrect. -/

namespace Sys2Proof.Machine

/-- The executing engine has no fault (60_exceptions.md R196). -/
abbrev State.live (s : State) : Prop := s.eng.fault = 0

/-- The executing engine has no fault and its context is not sealed (43_sponge_context.md R176). -/
abbrev State.ready (s : State) : Prop := s.eng.fault = 0 ∧ s.eng.sealed = false

/-- `s` with engine `e`, number `c.engine`, executing, and the command's operand bus and draws presented: what the meaning of a
command taken from the port runs on (30_encoding.md R80). -/
def State.presented (s : State) (c : Command) (rest : List PortEvent) (e : Engine) : State where
  cfg := s.cfg
  below := s.engines.take c.engine
  eng := e
  above := s.engines.drop (c.engine + 1)
  shared := s.shared
  opnd := c.opnd
  ioOk := c.ioOk
  images := c.images
  resp := s.resp
  port := rest
  freeCount := s.freeCount

/-- `s` with other values in the three counters (10_state.md R33). -/
def State.withCounters (s : State) (calls hits misses : Word) : State :=
  { s with shared := { s.shared with cntCalls := calls, cntHits := hits, cntMisses := misses } }

/-- The ranges of the context registers: `CURSOR` 0..8 (10_state.md R26), and `SAVED[63 : 8*BYTEIDX] = 0` (R24). -/
abbrev Context.wf (c : Context) : Prop := c.cursor.toNat ≤ 8 ∧ c.saved >>> (8 * c.byteIdx.toNat) = 0

/-- An engine's registers: the context's ranges, and `FAULT` 0..4 (60_exceptions.md R191). -/
abbrev Engine.wf (e : Engine) : Prop := e.toContext.wf ∧ e.fault.toNat ≤ 4

/-- The shared state: `TBL_PAGES` is 0 or `PAGE_COUNT` (10_state.md R34), the calls are the hits and the misses (R33), the table is in
its canonical form within its `PAGE_COUNT` pages, and no covered content is unspecified (R35). -/
abbrev Shared.wf (pageCount : Nat) (sh : Shared) : Prop :=
  (sh.tblPages.toNat = 0 ∨ sh.tblPages.toNat = pageCount) ∧ sh.cntCalls = sh.cntHits + sh.cntMisses ∧
    sh.tbl.wf ∧ (∀ c ∈ sh.tbl.cells, c.1 < pageBytes * pageCount) ∧ (sh.tblPages ≠ 0 → sh.tbl.fill = .computed)

/-- The invariant of the system, which reset establishes and every step keeps. -/
def State.Inv (s : State) : Prop := (∀ e ∈ s.engines, e.wf) ∧ s.shared.wf s.cfg.pageCount

/-- TableCorrect (20_memory.md R69): every covered entry is the fallback hash of its index. A premise, not a rule of the machine. -/
def Shared.tableCorrect (sh : Shared) : Prop := ∀ i : Word, sh.covers i.toNat = true → sh.tblRead i = fallbackHash i

end Sys2Proof.Machine
end

