-- ==== Sys2Proof/Certificates/Slice0/Obligations.lean ====
section
/-! DEFINITION. The statements for the provers. Each says in its docstring which rule of spec/ it formalises. -/

open Sys2Proof Sys2Proof.Machine

/-! Encoding -/

/-- 30_encoding.md R80 to R84: decoding the word of a well-formed command gives the command back. -/
def Obligations.DecodeEncodeRoundTrip : Prop := ∀ i : Instr, i.wf = true → decode (encode i) = .ok i

/-- 30_encoding.md R84, R86: a word that decodes to a command is that command's own word, and the command is well formed: no bit of a
legal word is a don't-care. -/
def Obligations.EncodeDecodeRoundTrip : Prop :=
  ∀ (w : CmdWord) (i : Instr), decode w = .ok i → encode i = w ∧ i.wf = true

/-- 30_encoding.md R84: a word decodes to a command exactly when it matches the command's row under the row's mask and meets the
row's extra condition; the fourteen rows are disjoint; a word that selects no row is illegal. -/
def Obligations.OpcodeMapSelectsCommand : Prop :=
  (∀ (w : CmdWord) (i : Instr), decode w = .ok i →
    ∃ r ∈ opcodeRows, r.mnemonic = i.mnemonic ∧ w &&& r.mask = r.pattern ∧ (w &&& ~~~r.mask).toNat ≤ r.top) ∧
  (∀ (w : CmdWord), ∀ r ∈ opcodeRows, w &&& r.mask = r.pattern → (w &&& ~~~r.mask).toNat ≤ r.top →
    ∃ i, decode w = .ok i ∧ i.mnemonic = r.mnemonic) ∧
  opcodeRows.Pairwise (fun r q => ∀ w : CmdWord, ¬ (w &&& r.mask = r.pattern ∧ w &&& q.mask = q.pattern)) ∧
  opcodeRows.length = 14 ∧
  (∀ w : CmdWord, (∀ r ∈ opcodeRows, ¬ (w &&& r.mask = r.pattern ∧ (w &&& ~~~r.mask).toNat ≤ r.top)) →
    ∃ e, decode w = .error e)

/-- 30_encoding.md R85: the illegal words are exactly those of the clauses (a) to (f); executing one raises ILLEGAL_CMD and changes
nothing else; 578 of the 65536 words are legal. -/
def Obligations.IllegalWordsAreTheSixClauses : Prop :=
  (∀ w : CmdWord,
    let op := (w.extractLsb' 12 4).toNat
    let x := (w.extractLsb' 11 1).toNat
    let z := (w.extractLsb' 8 3).toNat
    let imm := (w.extractLsb' 0 8).toNat
    (∃ e, decode w = .error e) ↔
      11 ≤ op ∨ z ≠ 0 ∨ (x = 1 ∧ op ≠ 1 ∧ op ≠ 2 ∧ op ≠ 3) ∨ (imm ≠ 0 ∧ op ∈ [0, 2, 3, 6, 7, 8, 10]) ∨
        ((op = 4 ∨ op = 5) ∧ 24 < imm) ∨ (op = 9 ∧ 6 < imm)) ∧
  (∀ (w : CmdWord) (e : IllegalWord) (s : State), decode w = .error e → s.live →
    execWord w s = .next { s with eng := { s.eng with fault := 1 }, resp := some (.fault 1) }) ∧
  ∃ legal : List CmdWord, legal.length = 578 ∧ legal.Nodup ∧ ∀ w, w ∈ legal ↔ ∃ i, decode w = .ok i

/-- 30_encoding.md R90: the encoding examples. -/
def Obligations.EncodingExamples : Prop :=
  encode .init = 0x0000#16 ∧ encode (.absbP 0xA3) = 0x10A3#16 ∧ encode (.absbX 0xA3) = 0x18A3#16 ∧
  encode (.absbP 0x00) = 0x1000#16 ∧ encode .finP = 0x2000#16 ∧ encode .finX = 0x2800#16 ∧
  encode .permP = 0x3000#16 ∧ encode .permX = 0x3800#16 ∧ encode (.rdlane 0) = 0x4000#16 ∧
  encode (.rdlane 24) = 0x4018#16 ∧ encode (.wrlane 8) = 0x5008#16 ∧ encode .reduce = 0x6000#16 ∧
  encode .resolve = 0x7000#16 ∧ encode .tblinit = 0x8000#16 ∧ encode (.rdcsr 0) = 0x9000#16 ∧
  encode (.rdcsr 6) = 0x9006#16 ∧ encode .tblrd = 0xA000#16 ∧
  (∀ w ∈ [0x4019#16, 0x9007#16, 0x0800#16, 0x2001#16, 0x1100#16, 0xB000#16, 0xFFFF#16], ∃ e, decode w = .error e)

/-- 30_encoding.md R84, R90: words written out from the encoding decode to the commands they stand for. -/
def Obligations.WordsDecodeToTheirCommands : Prop :=
  decode 0x0000 = .ok .init ∧ decode 0x10A3 = .ok (.absbP 0xA3) ∧ decode 0x1861 = .ok (.absbX 0x61) ∧
  decode 0x2000 = .ok .finP ∧ decode 0x2800 = .ok .finX ∧ decode 0x3000 = .ok .permP ∧ decode 0x3800 = .ok .permX ∧
  decode 0x4018 = .ok (.rdlane 24) ∧ decode 0x5008 = .ok (.wrlane 8) ∧ decode 0x6000 = .ok .reduce ∧
  decode 0x7000 = .ok .resolve ∧ decode 0x8000 = .ok .tblinit ∧ decode 0x9006 = .ok (.rdcsr 6) ∧ decode 0xA000 = .ok .tblrd

/-! The configuration -/

/-- 00_scope.md R6, R7: numbers make a configuration exactly when they are well formed, and the configuration then holds them. -/
def Obligations.ConfigurationsAreTheWellFormedOnes : Prop :=
  ∀ (small : Nat) (tiers : List (Nat × Nat)) (pages : Nat),
    ((∃ c, Config.ofNumbers small tiers pages = some c) ↔
      1 ≤ small ∧ small ≤ 2 ^ 20 ∧ (∀ t ∈ tiers, t.1 ≤ 2 ^ 64 ∧ 1 ≤ t.2 ∧ t.2 ≤ 2 ^ 64) ∧ pages ≤ 2 ^ 44) ∧
    (∀ c, Config.ofNumbers small tiers pages = some c →
      c.smallSpace = small ∧ c.tiers.map (fun t => (t.limit, t.space)) = tiers ∧ c.pageCount = pages)

/-! The step -/

/-- 10_state.md R28, 70_reset_and_hazards.md R229, log 1: a step takes the first command of the port, presents its operand bus and its
draws to its engine, and is exec of the decoded command there; no engine is moved by it. -/
def Obligations.StepExecutesTheDecodedCommand : Prop :=
  ∀ (s : State) (c : Command) (rest : List PortEvent) (e : Engine) (i : Instr),
    s.port = .command c :: rest → s.engines[c.engine]? = some e → decode c.word = .ok i →
    step s = exec i (s.presented c rest e) ∧ (s.presented c rest e).engines = s.engines

/-- 60_exceptions.md R192: an illegal word raises ILLEGAL_CMD and changes no state but FAULT. -/
def Obligations.StepRaisesIllegalCommand : Prop :=
  ∀ (s : State) (c : Command) (rest : List PortEvent) (e : Engine) (x : IllegalWord),
    s.port = .command c :: rest → s.engines[c.engine]? = some e → decode c.word = .error x → e.fault = 0 →
    step s = .next { s.presented c rest e with eng := { e with fault := 1 }, resp := some (.fault 1) }

/-- 60_exceptions.md R196: on a faulted engine only RDCSR and RDLANE execute, and respond as usual; every other word, legal or
illegal, is refused, with no state changed and FAULT kept. -/
def Obligations.StepOnFaultedEngine : Prop :=
  ∀ (s : State) (c : Command) (rest : List PortEvent) (e : Engine),
    s.port = .command c :: rest → s.engines[c.engine]? = some e → e.fault ≠ 0 →
    ((∀ l, decode c.word ≠ .ok (.rdlane l)) → (∀ n, decode c.word ≠ .ok (.rdcsr n)) →
      step s = .next { s.presented c rest e with resp := some (.refused e.fault) }) ∧
    (∀ l, decode c.word = .ok (.rdlane l) →
      step s = .next { s.presented c rest e with resp := some (.data64 (lane e.lanes l.toNat)) }) ∧
    (∀ n, decode c.word = .ok (.rdcsr n) → ∃ v, (s.presented c rest e).csr n = some v ∧
      step s = .next { s.presented c rest e with resp := some (.data64 v) })

/-- 60_exceptions.md R196, R199, 70_reset_and_hazards.md R220: whatever the next event is, but for reset, an engine with a fault
stays exactly as it is. -/
def Obligations.FaultedEngineStaysUntilReset : Prop :=
  ∀ (s t : State) (k : Nat) (e : Engine), step s = .next t → s.port.head? ≠ some .reset →
    s.engines[k]? = some e → e.fault ≠ 0 → t.engines[k]? = some e

/-- 70_reset_and_hazards.md R220 with 10_state.md R38: the reset event leaves every engine and the shared registers at their reset
values, the configuration, the number of engines and the events to come as they were. -/
def Obligations.ResetEventResetsTheSystem : Prop :=
  ∀ (s : State) (rest : List PortEvent), s.port = .reset :: rest → ∃ t, step s = .next t ∧
    t.engines.length = s.engines.length ∧
    (∀ e ∈ t.engines, (∀ l, l < 25 → lane e.lanes l = 0) ∧ e.saved = 0 ∧ e.byteIdx = 0 ∧ e.cursor = 0 ∧
      e.sealed = false ∧ e.fault = 0) ∧
    t.shared.tblPages = 0 ∧ t.shared.cntCalls = 0 ∧ t.shared.cntHits = 0 ∧ t.shared.cntMisses = 0 ∧
    t.cfg = s.cfg ∧ t.port = rest

/-- 10_state.md R38: the values the spec gives for reset. -/
def Obligations.ResetValues : Prop :=
  (∀ e ∈ State.reset.engines, (∀ l, l < 25 → lane e.lanes l = 0) ∧ e.saved = 0 ∧ e.byteIdx = 0 ∧ e.cursor = 0 ∧
    e.sealed = false ∧ e.fault = 0) ∧
  State.reset.shared.tblPages = 0 ∧ State.reset.shared.cntCalls = 0 ∧ State.reset.shared.cntHits = 0 ∧
  State.reset.shared.cntMisses = 0

/-- 60_exceptions.md R202, log 1 (the model's choice of what an idle step is): with nothing on the port the state is held. -/
def Obligations.IdleStepHoldsTheState : Prop := ∀ s : State, s.port = [] → step s = .next s

/-- 60_exceptions.md R203, log 5 (the model's choice): a command issued to an engine that the system does not have stops the model. -/
def Obligations.AbsentEngineStops : Prop :=
  ∀ (s : State) (c : Command) (rest : List PortEvent), s.port = .command c :: rest → s.engines.length ≤ c.engine →
    step s = .fault .noSuchEngine

/-! The context commands -/

/-- 43_sponge_context.md R161: INIT zeroes the whole context, in every state but a faulted one, and writes nothing else. -/
def Obligations.InitZeroesTheContext : Prop :=
  ∀ s : State,
    (s.live → exec .init s = .next { s with
      eng := { lanes := Vector.replicate 25 0, saved := 0, byteIdx := 0, cursor := 0, sealed := false, fault := 0 }
      resp := some .ok }) ∧
    (s.eng.fault ≠ 0 → exec .init s = .next { s with resp := some (.refused s.eng.fault) })

/-- 10_state.md R39: INIT leaves the engine as reset leaves it, and issued first after reset changes nothing (but the response). -/
def Obligations.InitEqualsReset : Prop :=
  (∀ s : State, s.live → ∃ t, exec .init s = .next t ∧ t.eng = State.reset.eng ∧ t.shared = s.shared) ∧
  exec .init State.reset = .next { State.reset with resp := some .ok }

/-- 43_sponge_context.md R162 with R173: ABSB.P within a word, completing a word, completing a block, and on a sealed context. -/
def Obligations.AbsorbPlainByte : Prop :=
  ∀ (s : State) (b : Byte),
    let acc := s.eng.saved ||| (b.setWidth 64 <<< (8 * s.eng.byteIdx.toNat))
    let folded := xorLane s.eng.lanes s.eng.cursor.toNat acc
    (s.ready → s.eng.byteIdx.toNat < 7 → exec (.absbP b) s = .next { s with
      eng := { s.eng with saved := acc, byteIdx := s.eng.byteIdx + 1 }, resp := some .ok }) ∧
    (s.ready → s.eng.byteIdx.toNat = 7 → s.eng.cursor.toNat ≠ 8 → exec (.absbP b) s = .next { s with
      eng := { s.eng with lanes := folded, saved := 0, byteIdx := 0, cursor := s.eng.cursor + 1 }, resp := some .ok }) ∧
    (s.ready → s.eng.byteIdx.toNat = 7 → s.eng.cursor.toNat = 8 → exec (.absbP b) s = .next { s with
      eng := { s.eng with lanes := keccakPlain folded, saved := 0, byteIdx := 0, cursor := 0 }, resp := some .ok }) ∧
    (s.live → s.eng.sealed = true → exec (.absbP b) s = .next { s with
      eng := { s.eng with fault := 2 }, resp := some (.fault 2) })

/-- 43_sponge_context.md R163 with R173: ABSB.X is ABSB.P but for the permutation of the byte that completes a block, which is the
Extended one and moves the counters by 24. -/
def Obligations.AbsorbExtendedByte : Prop :=
  ∀ (s : State) (b : Byte),
    let acc := s.eng.saved ||| (b.setWidth 64 <<< (8 * s.eng.byteIdx.toNat))
    let folded := xorLane s.eng.lanes s.eng.cursor.toNat acc
    let permuted := extendedRounds s.cfg 24 folded s.shared
    (s.ready → s.eng.byteIdx.toNat < 7 → exec (.absbX b) s = .next { s with
      eng := { s.eng with saved := acc, byteIdx := s.eng.byteIdx + 1 }, resp := some .ok }) ∧
    (s.ready → s.eng.byteIdx.toNat = 7 → s.eng.cursor.toNat ≠ 8 → exec (.absbX b) s = .next { s with
      eng := { s.eng with lanes := folded, saved := 0, byteIdx := 0, cursor := s.eng.cursor + 1 }, resp := some .ok }) ∧
    (s.ready → s.eng.byteIdx.toNat = 7 → s.eng.cursor.toNat = 8 → exec (.absbX b) s = .next { s with
      eng := { s.eng with lanes := permuted.1, saved := 0, byteIdx := 0, cursor := 0 }
      shared := permuted.2
      resp := some .ok }) ∧
    (∃ h m, h + m = 24 ∧ permuted.2 = { s.shared with
      cntCalls := s.shared.cntCalls + 24
      cntHits := s.shared.cntHits + BitVec.ofNat 64 h
      cntMisses := s.shared.cntMisses + BitVec.ofNat 64 m }) ∧
    (s.live → s.eng.sealed = true → exec (.absbX b) s = .next { s with
      eng := { s.eng with fault := 2 }, resp := some (.fault 2) })

/-- 43_sponge_context.md R164 with R166, R167, R174: FIN.P pads, runs the Plain permutation, seals, and responds the first eight lanes;
SAVED, BYTEIDX, CURSOR and the counters stay. -/
def Obligations.FinalizePlain : Prop :=
  ∀ s : State,
    let padded := xorLane (xorLane s.eng.lanes s.eng.cursor.toNat
      (s.eng.saved ^^^ (0x06#64 <<< (8 * s.eng.byteIdx.toNat)))) 8 0x8000000000000000#64
    let a := keccakPlain padded
    let d : DigestWord :=
      lane a 7 ++ lane a 6 ++ lane a 5 ++ lane a 4 ++ lane a 3 ++ lane a 2 ++ lane a 1 ++ lane a 0
    (s.ready → exec .finP s = .next { s with
      eng := { s.eng with lanes := a, sealed := true }, resp := some (.digest d) }) ∧
    (s.live → s.eng.sealed = true → exec .finP s = .next { s with
      eng := { s.eng with fault := 2 }, resp := some (.fault 2) })

/-- 43_sponge_context.md R165: FIN.X is FIN.P but for the permutation, which is the Extended one and moves the counters by 24. -/
def Obligations.FinalizeExtended : Prop :=
  ∀ s : State,
    let padded := xorLane (xorLane s.eng.lanes s.eng.cursor.toNat
      (s.eng.saved ^^^ (0x06#64 <<< (8 * s.eng.byteIdx.toNat)))) 8 0x8000000000000000#64
    let permuted := extendedRounds s.cfg 24 padded s.shared
    let a := permuted.1
    let d : DigestWord :=
      lane a 7 ++ lane a 6 ++ lane a 5 ++ lane a 4 ++ lane a 3 ++ lane a 2 ++ lane a 1 ++ lane a 0
    (s.ready → exec .finX s = .next { s with
      eng := { s.eng with lanes := a, sealed := true }, shared := permuted.2, resp := some (.digest d) }) ∧
    (∃ h m, h + m = 24 ∧ permuted.2 = { s.shared with
      cntCalls := s.shared.cntCalls + 24
      cntHits := s.shared.cntHits + BitVec.ofNat 64 h
      cntMisses := s.shared.cntMisses + BitVec.ofNat 64 m }) ∧
    (s.live → s.eng.sealed = true → exec .finX s = .next { s with
      eng := { s.eng with fault := 2 }, resp := some (.fault 2) })

/-! The permutation commands -/

/-- 42_permutation.md R140: PERM.P runs the Plain permutation on the lanes and writes nothing else. -/
def Obligations.PermutePlain : Prop :=
  ∀ s : State,
    (s.ready → exec .permP s = .next { s with
      eng := { s.eng with lanes := keccakPlain s.eng.lanes }, resp := some .ok }) ∧
    (s.live → s.eng.sealed = true → exec .permP s = .next { s with
      eng := { s.eng with fault := 2 }, resp := some (.fault 2) })

/-- 42_permutation.md R141, R145: PERM.X runs the Extended permutation on the lanes, with or without a table, moves the counters by
24, and writes nothing else. -/
def Obligations.PermuteExtended : Prop :=
  ∀ s : State,
    let permuted := extendedRounds s.cfg 24 s.eng.lanes s.shared
    (s.ready → exec .permX s = .next { s with
      eng := { s.eng with lanes := permuted.1 }, shared := permuted.2, resp := some .ok }) ∧
    (∃ h m, h + m = 24 ∧ permuted.2 = { s.shared with
      cntCalls := s.shared.cntCalls + 24
      cntHits := s.shared.cntHits + BitVec.ofNat 64 h
      cntMisses := s.shared.cntMisses + BitVec.ofNat 64 m }) ∧
    (s.live → s.eng.sealed = true → exec .permX s = .next { s with
      eng := { s.eng with fault := 2 }, resp := some (.fault 2) })

/-! The access commands -/

/-- 43_sponge_context.md R169: RDLANE responds the lane, in every state, sealed or faulted too, and writes nothing. -/
def Obligations.ReadLane : Prop :=
  ∀ (s : State) (l : BitVec 5) (h : l.toNat < 25),
    exec (.rdlane l) s = .next { s with resp := some (.data64 s.eng.lanes[l.toNat]) }

/-- 43_sponge_context.md R170: WRLANE overwrites the lane with `opnd[63:0]` and writes nothing else; sealed, it faults. -/
def Obligations.WriteLane : Prop :=
  ∀ (s : State) (l : BitVec 5) (h : l.toNat < 25),
    (s.ready → exec (.wrlane l) s = .next { s with
      eng := { s.eng with lanes := s.eng.lanes.set l.toNat (s.opnd.extractLsb' 0 64) h }, resp := some .ok }) ∧
    (s.live → s.eng.sealed = true → exec (.wrlane l) s = .next { s with
      eng := { s.eng with fault := 2 }, resp := some (.fault 2) })

/-- 43_sponge_context.md R171 with 10_state.md R30 to R32: RDCSR responds the value of the CSR, in every state, and writes nothing. The
last clause, that the term with number 7 (which no word decodes to) executes as an illegal command, is the model's choice, log 9. -/
def Obligations.ReadCsr : Prop :=
  ∀ s : State,
    exec (.rdcsr 0) s = .next { s with resp := some (.data64 (BitVec.ofNat 64
      ((if s.eng.sealed then 1 else 0) + 2 * (if s.shared.tblPages = 0 then 0 else 1) + 4 * s.eng.fault.toNat))) } ∧
    exec (.rdcsr 1) s = .next { s with resp := some (.data64 (BitVec.ofNat 64
      (s.eng.cursor.toNat + 16 * s.eng.byteIdx.toNat))) } ∧
    exec (.rdcsr 2) s = .next { s with resp := some (.data64 s.eng.saved) } ∧
    exec (.rdcsr 3) s = .next { s with resp := some (.data64 s.shared.cntCalls) } ∧
    exec (.rdcsr 4) s = .next { s with resp := some (.data64 s.shared.cntHits) } ∧
    exec (.rdcsr 5) s = .next { s with resp := some (.data64 s.shared.cntMisses) } ∧
    exec (.rdcsr 6) s = .next { s with resp := some (.data64 (BitVec.ofNat 64 s.shared.tblPages.toNat)) } ∧
    (s.live → exec (.rdcsr 7) s = .next { s with eng := { s.eng with fault := 1 }, resp := some (.fault 1) })

/-- 30_encoding.md R85 (e), log 9 (the model's choice for a term no word decodes to): a lane above 24 is an illegal command. -/
def Obligations.LaneAboveTwentyFourIsIllegal : Prop :=
  ∀ (s : State) (l : BitVec 5), 24 < l.toNat → s.live →
    exec (.rdlane l) s = .next { s with eng := { s.eng with fault := 1 }, resp := some (.fault 1) } ∧
    exec (.wrlane l) s = .next { s with eng := { s.eng with fault := 1 }, resp := some (.fault 1) }

/-! The reduction function -/

/-- 40_reduction.md R100 to R103: the fast path, the first matching tier, and no tier. -/
def Obligations.ReduceFastPathTiersAndNoTier : Prop :=
  ∀ (cfg : Config) (sel val : Word),
    (2 ^ 63 ≤ sel.toNat → (reduceWord cfg sel val).toNat = val.toNat % cfg.smallSpace ∧
      (reduceWord cfg sel val).toNat < 2 ^ 20) ∧
    (sel.toNat < 2 ^ 63 → ∀ (k : Nat) (t : Tier), cfg.tiers[k]? = some t → sel.toNat < t.limit →
      (∀ (j : Nat) (u : Tier), j < k → cfg.tiers[j]? = some u → u.limit ≤ sel.toNat) →
      (reduceWord cfg sel val).toNat = val.toNat % t.space) ∧
    (sel.toNat < 2 ^ 63 → (∀ t ∈ cfg.tiers, t.limit ≤ sel.toNat) → reduceWord cfg sel val = val)

/-- 40_reduction.md R104: in every case the result is at most the value, and the value 0 reduces to 0. -/
def Obligations.ReduceIsBounded : Prop :=
  ∀ (cfg : Config) (sel val : Word),
    (reduceWord cfg sel val).toNat ≤ val.toNat ∧ reduceWord cfg sel 0 = 0

/-- 40_reduction.md R105: REDUCE responds the reduction of the operand bus, sealed or not, and writes nothing. -/
def Obligations.ReduceCommand : Prop :=
  ∀ s : State,
    (s.live → exec .reduce s = .next { s with
      resp := some (.data64 (reduceWord s.cfg (s.opnd.extractLsb' 64 64) (s.opnd.extractLsb' 0 64))) }) ∧
    (s.eng.fault ≠ 0 → exec .reduce s = .next { s with resp := some (.refused s.eng.fault) })

/-! The fallback hash, the resolver and the table -/

/-- 41_table_and_resolver.md R110, R112 with R111: the fallback hash is the exclusive or of the eight little-endian words of the Plain
digest of the index's bytes 32 times over, or 1 where that is 0; so it is never 0. -/
def Obligations.FallbackHashIsForcedNonZero : Prop :=
  ∀ i : Word,
    let d := plainDigest (List.replicate 32 (le8 i)).flatten
    let w := fun j => d.extractLsb' (64 * j) 64
    let v := w 0 ^^^ w 1 ^^^ w 2 ^^^ w 3 ^^^ w 4 ^^^ w 5 ^^^ w 6 ^^^ w 7
    fallbackHash i = (if v = 0 then 1 else v) ∧ fallbackHash i ≠ 0

/-- 41_table_and_resolver.md R123: a fallback hash is four Plain permutations: three full blocks of nine copies of the index, then
five copies, the suffix in lane 5 and the terminator in lane 8. -/
def Obligations.FallbackHashIsFourPermutations : Prop :=
  ∀ i : Word,
    let copies := fun (n : Nat) (a : Lanes) => (List.range n).foldl (fun a l => xorLane a l i) a
    let block := fun (a : Lanes) => keccakPlain (copies 9 a)
    let last := xorLane (xorLane (copies 5 (block (block (block (Vector.replicate 25 0))))) 5 0x06) 8 0x8000000000000000
    let a := keccakPlain last
    let v := lane a 0 ^^^ lane a 1 ^^^ lane a 2 ^^^ lane a 3 ^^^ lane a 4 ^^^ lane a 5 ^^^ lane a 6 ^^^ lane a 7
    fallbackHash i = if v = 0 then 1 else v

/-- 41_table_and_resolver.md R121 with R114: RESOLVE counts a call and a hit and responds the table word in the covered range, counts a
call and a miss and responds the fallback hash elsewhere; sealed or not. -/
def Obligations.ResolveCommand : Prop :=
  ∀ s : State,
    let i := s.opnd.extractLsb' 0 64
    (s.live → i.toNat < 2 ^ 20 * s.shared.tblPages.toNat → exec .resolve s = .next { s with
      shared := { s.shared with cntCalls := s.shared.cntCalls + 1, cntHits := s.shared.cntHits + 1 }
      resp := some (.data64 (s.shared.tbl.readWord i.toNat)) }) ∧
    (s.live → 2 ^ 20 * s.shared.tblPages.toNat ≤ i.toNat → exec .resolve s = .next { s with
      shared := { s.shared with cntCalls := s.shared.cntCalls + 1, cntMisses := s.shared.cntMisses + 1 }
      resp := some (.data64 (fallbackHash i)) }) ∧
    (s.eng.fault ≠ 0 → exec .resolve s = .next { s with resp := some (.refused s.eng.fault) })

/-- 41_table_and_resolver.md R122: under TableCorrect a resolution is the fallback hash whatever is covered, and so not 0; without it a
hit is what the table holds; the data never depends on the counters. -/
def Obligations.ResolveUnderTableCorrect : Prop :=
  ∀ (sh : Shared) (i : Word),
    (sh.tableCorrect → (resolveIndex i sh).1 = fallbackHash i ∧ (resolveIndex i sh).1 ≠ 0) ∧
    (i.toNat < 2 ^ 20 * sh.tblPages.toNat → (resolveIndex i sh).1 = sh.tbl.readWord i.toNat) ∧
    (∀ calls hits misses : Word,
      (resolveIndex i { sh with cntCalls := calls, cntHits := hits, cntMisses := misses }).1 = (resolveIndex i sh).1)

/-- 41_table_and_resolver.md R120: TBLRD responds the table word in the covered range and raises TBL_RANGE outside it; sealed or not; no
counter moves. -/
def Obligations.ReadTableCommand : Prop :=
  ∀ s : State,
    let i := s.opnd.extractLsb' 0 64
    (s.live → i.toNat < 2 ^ 20 * s.shared.tblPages.toNat → exec .tblrd s = .next { s with
      resp := some (.data64 (s.shared.tbl.readWord i.toNat)) }) ∧
    (s.live → 2 ^ 20 * s.shared.tblPages.toNat ≤ i.toNat → exec .tblrd s = .next { s with
      eng := { s.eng with fault := 3 }, resp := some (.fault 3) }) ∧
    (s.eng.fault ≠ 0 → exec .tblrd s = .next { s with resp := some (.refused s.eng.fault) })

/-- 41_table_and_resolver.md R116, R118 with R117, R119: TBLINIT with `io_ok` covers PAGE_COUNT pages, every entry the little-endian
word of its page's image where one of exactly 2^23 bytes was presented and the fallback hash of its index elsewhere; without `io_ok`
it raises TBL_IO with no page covered. Nothing else is written (but, on failure, the model's count of unspecified contents). -/
def Obligations.BuildTableCommand : Prop :=
  ∀ s : State,
    (s.live → s.ioOk = true → ∃ m : Memory,
      exec .tblinit s = .next { s with
        shared := { s.shared with tbl := m, tblPages := BitVec.ofNat 45 s.cfg.pageCount }
        resp := some .ok } ∧
      (BitVec.ofNat 45 s.cfg.pageCount).toNat = s.cfg.pageCount ∧
      ∀ p j : Nat, p < s.cfg.pageCount → j < 2 ^ 20 →
        (∀ bytes : List Byte, s.images[p]? = some (some bytes) → bytes.length = 2 ^ 23 →
          m.readWord (2 ^ 20 * p + j) = le8inv fun k => bytes.getD (8 * j + k) 0) ∧
        ((∀ bytes : List Byte, s.images[p]? = some (some bytes) → bytes.length ≠ 2 ^ 23) →
          m.readWord (2 ^ 20 * p + j) = fallbackHash (BitVec.ofNat 64 (2 ^ 20 * p + j)))) ∧
    (s.live → s.ioOk = false → ∃ m : Memory,
      exec .tblinit s = .next { s with
        eng := { s.eng with fault := 4 }
        shared := { s.shared with tbl := m, tblPages := 0 }
        resp := some (.fault 4)
        freeCount := s.freeCount + 1 }) ∧
    (s.eng.fault ≠ 0 → exec .tblinit s = .next { s with resp := some (.refused s.eng.fault) })

/-- 20_memory.md R69: TableCorrect holds after a TBLINIT in which every loaded page image equals what computing would have given, in
particular after one in which every page was computed. -/
def Obligations.TableCorrectAfterTrustedImages : Prop :=
  ∀ s : State, s.live → s.ioOk = true →
    (∀ (p j : Nat) (bytes : List Byte), p < s.cfg.pageCount → j < 2 ^ 20 → s.images[p]? = some (some bytes) →
      bytes.length = 2 ^ 23 →
      (le8inv fun k => bytes.getD (8 * j + k) 0) = fallbackHash (BitVec.ofNat 64 (2 ^ 20 * p + j))) →
    ∃ t, exec .tblinit s = .next t ∧ t.shared.tableCorrect

/-- 20_memory.md R65: no event but a TBLINIT and reset changes the table or the page count, so every covered word reads as before. -/
def Obligations.TableIsImmutable : Prop :=
  ∀ s t : State, step s = .next t → s.port.head? ≠ some .reset →
    (∀ (c : Command) (rest : List PortEvent), s.port = .command c :: rest → decode c.word ≠ .ok .tblinit) →
    t.shared.tblPages = s.shared.tblPages ∧ t.shared.tbl = s.shared.tbl ∧
      ∀ addr, t.shared.tbl.readByte addr = s.shared.tbl.readByte addr

/-! The permutation -/

/-- 42_permutation.md R131, R133, R134 with R130: Theta, Pi (by both of its descriptions) and Chi, lane by lane at column x, row y. -/
def Obligations.StepMappingsByLane : Prop :=
  ∀ (a : Lanes) (x y : Nat), x < 5 → y < 5 →
    (let col := fun x => lane a x ^^^ lane a (x + 5) ^^^ lane a (x + 10) ^^^ lane a (x + 15) ^^^ lane a (x + 20)
     lane (theta a) (x + 5 * y) = lane a (x + 5 * y) ^^^ (col ((x + 4) % 5) ^^^ (col ((x + 1) % 5)).rotateLeft 1)) ∧
    lane (pi a) (x + 5 * y) = lane a ((x + 3 * y) % 5 + 5 * x) ∧
    lane (pi a) (y + 5 * ((2 * x + 3 * y) % 5)) = lane a (x + 5 * y) ∧
    lane (chi a) (x + 5 * y) =
      lane a (x + 5 * y) ^^^ (~~~ lane a ((x + 1) % 5 + 5 * y) &&& lane a ((x + 2) % 5 + 5 * y))

/-- 42_permutation.md R132: Rho rotates lane 0 by nothing and the other lanes by the offsets of the walk from (1, 0) by
`(x, y) <- (y, (2*x + 3*y) mod 5)`, which meets each of them once. -/
def Obligations.RhoFollowsTheWalk : Prop :=
  let position := fun t : Nat => (fun q : Nat × Nat => (q.2, (2 * q.1 + 3 * q.2) % 5))^[t] (1, 0)
  (∀ a : Lanes, lane (rho a) 0 = lane a 0 ∧ ∀ t : Nat, t < 24 →
    let i := (position t).1 + 5 * (position t).2
    lane (rho a) i = (lane a i).rotateLeft (((t + 1) * (t + 2) / 2) % 64)) ∧
  (∀ i : Nat, 1 ≤ i → i < 25 → ∃ t, t < 24 ∧ (position t).1 + 5 * (position t).2 = i)

/-- 42_permutation.md R135, R136: Iota changes lane 0 alone, by the constant whose bit `2^j - 1` is `rc(j + 7*r)` of the shift
register and whose other bits are 0. -/
def Obligations.IotaFollowsTheShiftRegister : Prop :=
  ∀ (a : Lanes) (r : Nat), r < 24 →
    let rc := fun t : Nat => (fun n : Nat => if 256 ≤ 2 * n then (2 * n) ^^^ 0x171 else 2 * n)^[t] 1 % 2
    (∀ i, 1 ≤ i → i < 25 → lane (iota a r) i = lane a i) ∧
    ∃ c : Word, lane (iota a r) 0 = lane a 0 ^^^ c ∧
      ∀ z, z < 64 → (c.getLsbD z = true ↔ ∃ j, j < 7 ∧ z = 2 ^ j - 1 ∧ rc (j + 7 * r) = 1)

/-- 42_permutation.md R139 with R137, R138: 24 rounds, each Theta, Rho, Pi, Chi, Iota and in Extended mode the feedback step with the
selector lane 1 and the value lane 0 after Iota; Extended adds 24 to the calls, Plain touches no shared state. -/
def Obligations.PermutationByRounds : Prop :=
  ∀ (cfg : Config) (a : Lanes) (sh : Shared),
    keccakP cfg .plain a sh = (plainRounds 24 a, sh) ∧ plainRounds 0 a = a ∧
    (∀ n, plainRounds (n + 1) a = iota (chi (pi (rho (theta (plainRounds n a))))) n) ∧
    keccakP cfg .extended a sh = extendedRounds cfg 24 a sh ∧ extendedRounds cfg 0 a sh = (a, sh) ∧
    (∀ n, let before := extendedRounds cfg n a sh
      let b := iota (chi (pi (rho (theta before.1)))) n
      let f := resolveIndex (reduceWord cfg (lane b 1) (lane b 0)) before.2
      (extendedRounds cfg (n + 1) a sh).2 = f.2 ∧
      ∀ i, i < 25 → lane (extendedRounds cfg (n + 1) a sh).1 i = if i = 0 then lane b 0 ^^^ f.1 else lane b i) ∧
    (∃ h m, h + m = 24 ∧ (keccakP cfg .extended a sh).2 = { sh with
      cntCalls := sh.cntCalls + 24
      cntHits := sh.cntHits + BitVec.ofNat 64 h
      cntMisses := sh.cntMisses + BitVec.ofNat 64 m })

/-- 42_permutation.md R144, 41_table_and_resolver.md R122: the lanes of the Extended permutation are a function of the lanes, the
configuration, the covered range and the words in it; under TableCorrect of the lanes and the reduction parameters alone: two
tables, of any sizes and counts, give the same lanes. -/
def Obligations.ExtendedPermutationIsDetermined : Prop :=
  ∀ (cfg cfg' : Config) (a : Lanes) (sh sh' : Shared), cfg.smallSpace = cfg'.smallSpace → cfg.tiers = cfg'.tiers →
    (sh.tblPages = sh'.tblPages → (∀ i : Word, sh.covers i.toNat = true → sh.tblRead i = sh'.tblRead i) →
      (keccakP cfg .extended a sh).1 = (keccakP cfg' .extended a sh').1) ∧
    (sh.tableCorrect → sh'.tableCorrect → (keccakP cfg .extended a sh).1 = (keccakP cfg' .extended a sh').1)

/-! The sponge -/

/-- 20_memory.md R54: the serialized view byte by byte, and the digest as its bytes 0 to 63. -/
def Obligations.SerializedViewAndDigest : Prop :=
  ∀ a : Lanes,
    (serialize a).length = 200 ∧
    (∀ k, k < 200 → (serialize a)[k]? = some ((lane a (k / 8)).extractLsb' (8 * (k % 8)) 8)) ∧
    (∀ k, k < 64 → (serialize a)[k]? = some ((digest a).extractLsb' (8 * k) 8))

/-- 10_state.md R27: the number of bytes absorbed since INIT is `8*CURSOR + BYTEIDX` modulo 72. -/
def Obligations.PositionCountsTheBytes : Prop :=
  ∀ (σ : Type) (perm : Perm σ) (msg : List Byte) (x : σ),
    let c := (absorbBytes perm msg Context.reset x).1
    msg.length % 72 = 8 * c.cursor.toNat + c.byteIdx.toNat

/-- 20_memory.md R55: from the start of a block, message byte n lies exclusive-ored in byte n of the serialized view, the pending bytes
counted in; the 72nd byte runs the permutation on exactly that state. -/
def Obligations.MessageBytesLieInTheirPlaces : Prop :=
  ∀ (σ : Type) (perm : Perm σ) (c : Context) (msg : List Byte) (x : σ),
    c.saved = 0 → c.byteIdx = 0 → c.cursor = 0 →
    (msg.length < 72 →
      let d := (absorbBytes perm msg c x).1
      ∀ k, k < 200 → byteOf (lane (xorLane d.lanes d.cursor.toNat d.saved) (k / 8)) (k % 8) =
        byteOf (lane c.lanes (k / 8)) (k % 8) ^^^ msg.getD k 0) ∧
    (msg.length = 72 → ∃ a : Lanes,
      (absorbBytes perm msg c x).1.lanes = (perm a x).1 ∧ (absorbBytes perm msg c x).2 = (perm a x).2 ∧
      ∀ k, k < 200 → byteOf (lane a (k / 8)) (k % 8) = byteOf (lane c.lanes (k / 8)) (k % 8) ^^^ msg.getD k 0)

/-- 43_sponge_context.md R166: padding exclusive-ors the pending bytes and the suffix byte into lane CURSOR and the terminator into lane
8, and touches no other lane, so no capacity lane. -/
def Obligations.PaddingByLane : Prop :=
  ∀ (c : Context) (l : Nat), c.cursor.toNat ≤ 8 → l < 25 →
    lane (pad c) l = lane c.lanes l ^^^
      (if l = c.cursor.toNat then c.saved ^^^ (0x06#64 <<< (8 * c.byteIdx.toNat)) else 0) ^^^
      (if l = 8 then 0x8000000000000000#64 else 0)

/-- 43_sponge_context.md R168: absorbing a message in any sequence of chunks is absorbing it whole. -/
def Obligations.ChunksDoNotMatter : Prop :=
  ∀ (σ : Type) (perm : Perm σ) (chunks : List (List Byte)) (c : Context) (x : σ),
    absorbBytes perm chunks.flatten c x = chunks.foldl (fun p chunk => absorbBytes perm chunk p.1 p.2) (c, x)

/-- 43_sponge_context.md R175: a message shorter than 72 bytes absorbed with ABSB.X and finished with FIN.P has the Plain digest. -/
def Obligations.ShortMessagesForgetTheAbsorbMode : Prop :=
  ∀ (cfg : Config) (msg : List Byte) (sh : Shared), msg.length < 72 →
    let absorbed := absorbBytes (keccakP cfg .extended) msg Context.reset sh
    digest (finalize (keccakP cfg .plain) absorbed.1 absorbed.2).1.lanes = plainDigest msg ∧ absorbed.2 = sh

/-- 43_sponge_context.md R172, R160: an Extended digest of n bytes makes `24 * (floor(n / 72) + 1)` counted resolutions and changes no
other shared state. -/
def Obligations.ExtendedDigestCounts : Prop :=
  ∀ (cfg : Config) (msg : List Byte) (sh : Shared), ∃ h m, h + m = 24 * (msg.length / 72 + 1) ∧
    (extendedDigest cfg msg sh).2 = { sh with
      cntCalls := sh.cntCalls + BitVec.ofNat 64 (24 * (msg.length / 72 + 1))
      cntHits := sh.cntHits + BitVec.ofNat 64 h
      cntMisses := sh.cntMisses + BitVec.ofNat 64 m }

/-! Faults -/

/-- 43_sponge_context.md R176: FIN.P and FIN.X seal; on a sealed context seven commands raise SEALED_USE and change nothing else, the
other seven do not, and INIT unseals. -/
def Obligations.SealedContextRefusesSeven : Prop :=
  ∀ s : State,
    (s.ready → ∀ i ∈ [Instr.finP, .finX], ∃ t, exec i s = .next t ∧ t.eng.sealed = true) ∧
    (s.live → s.eng.sealed = true →
      (∀ (b : Byte) (l : BitVec 5), l.toNat < 25 →
        ∀ i ∈ [Instr.absbP b, .absbX b, .finP, .finX, .permP, .permX, .wrlane l],
          exec i s = .next { s with eng := { s.eng with fault := 2 }, resp := some (.fault 2) }) ∧
      (∀ (l : BitVec 5) (n : BitVec 3), ∀ i ∈ [Instr.init, .rdlane l, .rdcsr n, .reduce, .resolve, .tblrd, .tblinit],
        ∃ t, exec i s = .next t ∧ t.eng.fault ≠ 2) ∧
      (∃ t, exec .init s = .next t ∧ t.eng.sealed = false))

/-- 60_exceptions.md R190, R191: a command that raises a fault records a code 1 to 4, responds it, and leaves the state before it with
FAULT set; only TBL_IO also clears TBL_PAGES and leaves the table unspecified. -/
def Obligations.FaultsArePrecise : Prop :=
  ∀ (i : Instr) (s t : State), s.live → exec i s = .next t → t.eng.fault ≠ 0 →
    1 ≤ t.eng.fault.toNat ∧ t.eng.fault.toNat ≤ 4 ∧ t.resp = some (.fault t.eng.fault) ∧
    (t.eng.fault ≠ 4 → t = { s with eng := { s.eng with fault := t.eng.fault }, resp := t.resp }) ∧
    (t.eng.fault = 4 → t.shared.tblPages = 0 ∧
      t = { s with
        eng := { s.eng with fault := 4 }
        shared := { s.shared with tbl := t.shared.tbl, tblPages := 0 }
        resp := t.resp
        freeCount := t.freeCount })

/-- 60_exceptions.md R196: on a faulted engine every command but RDLANE and RDCSR is refused and changes nothing. -/
def Obligations.FaultedEngineRefusesCommands : Prop :=
  ∀ (i : Instr) (s : State), s.eng.fault ≠ 0 → (∀ l, i ≠ .rdlane l) → (∀ n, i ≠ .rdcsr n) →
    exec i s = .next { s with resp := some (.refused s.eng.fault) }

/-- 93_implementation_defined.md section 1, last paragraph, and 30_encoding.md R83: every command in every state has exactly one
successor, and a response. -/
def Obligations.EveryCommandCompletes : Prop :=
  ∀ (i : Instr) (s : State), ∃ t, exec i s = .next t ∧ t.resp ≠ none

/-! The counters and several engines -/

/-- 10_state.md R33: only the commands that resolve move the counters: by one call for RESOLVE, by 24 or none for ABSB.X, FIN.X and
PERM.X; a call is a hit or a miss. -/
def Obligations.CountersMoveOnlyByResolving : Prop :=
  ∀ (i : Instr) (s t : State), exec i s = .next t → ∃ h m : Nat,
    t.shared.cntCalls = s.shared.cntCalls + BitVec.ofNat 64 (h + m) ∧
    t.shared.cntHits = s.shared.cntHits + BitVec.ofNat 64 h ∧
    t.shared.cntMisses = s.shared.cntMisses + BitVec.ofNat 64 m ∧
    (h + m = 0 ∨ (i = .resolve ∧ h + m = 1) ∨ (((∃ b, i = .absbX b) ∨ i = .finX ∨ i = .permX) ∧ h + m = 24))

/-- 10_state.md R33, 60_exceptions.md R204: the counters are only diagnostics: a command other than RDCSR does the same, and responds the
same, from any values of the counters, but for the counters themselves. -/
def Obligations.CountersAreOnlyDiagnostics : Prop :=
  ∀ (i : Instr) (s : State) (calls hits misses : Word), (∀ n, i ≠ .rdcsr n) →
    ∃ (t : State) (calls' hits' misses' : Word), exec i s = .next t ∧
      exec i (s.withCounters calls hits misses) = .next (t.withCounters calls' hits' misses')

/-- 60_exceptions.md R203: a command executed on one engine leaves every other engine, the configuration and the number of engines as
they were. -/
def Obligations.OtherEnginesAreUntouched : Prop :=
  ∀ (s t : State) (c : Command) (rest : List PortEvent), s.port = .command c :: rest → step s = .next t →
    t.cfg = s.cfg ∧ t.engines.length = s.engines.length ∧
    ∀ k, k ≠ c.engine → t.engines[k]? = s.engines[k]?

/-- 60_exceptions.md R205: commands on two different engines, neither a TBLINIT, give in either order the same engines, the same shared
state, and, but for RDCSR, each the same response. -/
def Obligations.CommandsOnTwoEnginesCommute : Prop :=
  ∀ (s : State) (c d : Command) (rest : List PortEvent), c.engine ≠ d.engine →
    c.engine < s.engines.length → d.engine < s.engines.length →
    decode c.word ≠ .ok .tblinit → decode d.word ≠ .ok .tblinit →
    ∃ t t' u u' : State,
      step { s with port := .command c :: .command d :: rest } = .next t ∧ step t = .next t' ∧
      step { s with port := .command d :: .command c :: rest } = .next u ∧ step u = .next u' ∧
      t'.engines = u'.engines ∧ t'.shared = u'.shared ∧ t'.cfg = u'.cfg ∧ t'.port = u'.port ∧
      ((∀ n, decode c.word ≠ .ok (.rdcsr n)) → t.resp = u'.resp) ∧
      ((∀ n, decode d.word ≠ .ok (.rdcsr n)) → t'.resp = u.resp)

/-! The invariant -/

/-- 10_state.md R24, R26, R33, R34, R35, 60_exceptions.md R191: every step, from every state that meets it, keeps the invariant of the
state: the ranges of CURSOR, SAVED and FAULT in every engine, TBL_PAGES 0 or PAGE_COUNT, the calls the sum of hits and misses, the
table in canonical form within its pages and specified where covered. -/
def Obligations.StepKeepsTheInvariant : Prop :=
  ∀ s t : State, s.Inv → step s = .next t → t.Inv

/-- 10_state.md R38: the state after reset meets the invariant. -/
def Obligations.ResetMeetsTheInvariant : Prop := State.reset.Inv
end

