-- ==== Sys2Proof/Laws/Bytes.lean ====
section
/-! SUPPORT. Lanes and bytes: reading a lane after a write, the lanes of the step mappings, and the little-endian layouts. -/

namespace Sys2Proof.Machine

theorem lane_eq_getElem (a : Lanes) (i : Nat) (h : i < 25) : lane a i = a[i] := by
  simp [lane, h]

theorem lane_of_ge (a : Lanes) (i : Nat) (h : 25 ≤ i) : lane a i = 0 := by
  simp [lane, Vector.getElem?_eq_none h]

theorem lanes_ext {a b : Lanes} (h : ∀ i, i < 25 → lane a i = lane b i) : a = b := by
  apply Vector.ext
  intro i hi
  simpa [lane_eq_getElem _ _ hi] using h i hi

theorem lane_setLane (a : Lanes) (i j : Nat) (v : Word) (hi : i < 25) :
    lane (setLane a i v) j = if j = i then v else lane a j := by
  by_cases hj : j < 25
  · rw [lane_eq_getElem _ _ hj, lane_eq_getElem _ _ hj]
    simp only [setLane, Vector.getElem_setIfInBounds]
    by_cases h : i = j <;> simp [h, eq_comm]
  · have : j ≠ i := by omega
    rw [lane_of_ge _ _ (by omega), if_neg this, lane_of_ge _ _ (by omega)]

@[simp] theorem lane_setLane_self (a : Lanes) (i : Nat) (v : Word) (hi : i < 25) :
    lane (setLane a i v) i = v := by simp [lane_setLane a i i v hi]

theorem lane_setLane_ne (a : Lanes) (i j : Nat) (v : Word) (h : j ≠ i) : lane (setLane a i v) j = lane a j := by
  by_cases hi : i < 25
  · simp [lane_setLane a i j v hi, h]
  · simp [setLane, Vector.setIfInBounds_eq_of_size_le (Nat.le_of_not_lt hi)]

theorem lane_xorLane (a : Lanes) (i j : Nat) (v : Word) (hi : i < 25) :
    lane (xorLane a i v) j = if j = i then lane a i ^^^ v else lane a j := lane_setLane a i j _ hi

theorem lane_xorLane_ne (a : Lanes) (i j : Nat) (v : Word) (h : j ≠ i) : lane (xorLane a i v) j = lane a j :=
  lane_setLane_ne a i j _ h

@[simp] theorem lane_zeroLanes (i : Nat) : lane zeroLanes i = 0 := by
  by_cases h : i < 25
  · rw [lane_eq_getElem _ _ h]; simp [zeroLanes]
  · exact lane_of_ge _ _ (by omega)

/-- The lane at column x, row y of an array made by columns and rows (42_permutation.md R130). -/
theorem laneAt_fromColumnsRows (f : Nat → Nat → Word) {x y : Nat} (hx : x < 5) (hy : y < 5) :
    laneAt (fromColumnsRows f) x y = f x y := by
  interval_cases x <;> interval_cases y <;> rfl

theorem byteOf_getLsbD (v : Word) (k j : Nat) (hj : j < 8) : (byteOf v k).getLsbD j = v.getLsbD (8 * k + j) := by
  simp [byteOf, hj]

theorem byteOf_le8inv (b : Nat → Byte) {k : Nat} (h : k < 8) : byteOf (le8inv b) k = b k := by
  apply BitVec.eq_of_getLsbD_eq
  intro j hj
  rw [byteOf_getLsbD _ _ _ hj]
  interval_cases k <;> simp only [le8inv, BitVec.getLsbD_append] <;> interval_cases j <;> simp

theorem le8inv_byteOf (v : Word) : le8inv (byteOf v) = v := by
  apply BitVec.eq_of_getLsbD_eq
  intro j hj
  simp only [le8inv, BitVec.getLsbD_append, byteOf]
  interval_cases j <;> simp

theorem le8inv_congr {b c : Nat → Byte} (h : ∀ k, k < 8 → b k = c k) : le8inv b = le8inv c := by
  simp [le8inv, h]

theorem word_ext_bytes {v w : Word} (h : ∀ k, k < 8 → byteOf v k = byteOf w k) : v = w := by
  rw [← le8inv_byteOf v, ← le8inv_byteOf w]; exact le8inv_congr h

theorem getLsbD_append_low {n m i : Nat} (x : BitVec n) (y : BitVec m) (h : i < m) :
    (x ++ y).getLsbD i = y.getLsbD i := by rw [BitVec.getLsbD_append, if_pos h]

theorem getLsbD_append_high {n m i : Nat} (x : BitVec n) (y : BitVec m) (h : m ≤ i) :
    (x ++ y).getLsbD i = x.getLsbD (i - m) := by rw [BitVec.getLsbD_append, if_neg (by omega)]

/-- Bit `64*j + r` of the digest of an array is bit r of its lane j (30_encoding.md R83). -/
theorem getLsbD_digest (a : Lanes) {j r : Nat} (hj : j < 8) (hr : r < 64) :
    (digest a).getLsbD (64 * j + r) = (lane a j).getLsbD r := by
  rw [digest]
  interval_cases j <;> repeat rw [getLsbD_append_high _ _ (by omega)]
  all_goals first
    | rw [getLsbD_append_low _ _ (by omega)]; exact congrArg _ (by omega)
    | exact congrArg _ (by omega)

/-- Digest byte k is byte k of the serialized view of the array (20_memory.md R54). -/
theorem digestByte_digest (a : Lanes) {k : Nat} (h : k < 64) : digestByte (digest a) k = byteOf (lane a (k / 8)) (k % 8) := by
  apply BitVec.eq_of_getLsbD_eq
  intro j hj
  rw [byteOf_getLsbD _ _ _ hj]
  have hd : (digestByte (digest a) k).getLsbD j = (digest a).getLsbD (64 * (k / 8) + (8 * (k % 8) + j)) := by
    rw [show 64 * (k / 8) + (8 * (k % 8) + j) = 8 * k + j by omega]
    simp [digestByte, hj]
  rw [hd, getLsbD_digest a (by omega) (by omega)]

/-- Word j of the digest of an array is its lane j (41_table_and_resolver.md R111). -/
theorem digestWord_digest (a : Lanes) {j : Nat} (h : j < 8) : digestWord (digest a) j = lane a j := by
  rw [digestWord]
  rw [le8inv_congr (c := byteOf (lane a j))]
  · exact le8inv_byteOf _
  · intro k hk
    rw [digestByte_digest a (by omega)]
    congr 1
    · congr 1; omega
    · omega

/-- The fold of the digest of an array is the exclusive or of its first eight lanes (41_table_and_resolver.md R111). -/
theorem fold_digest (a : Lanes) : fold (digest a) =
    lane a 0 ^^^ lane a 1 ^^^ lane a 2 ^^^ lane a 3 ^^^ lane a 4 ^^^ lane a 5 ^^^ lane a 6 ^^^ lane a 7 := by
  unfold fold
  repeat rw [digestWord_digest a (by decide)]

theorem length_le8 (v : Word) : (le8 v).length = 8 := rfl

theorem getElem?_le8 (v : Word) {k : Nat} (h : k < 8) : (le8 v)[k]? = some (byteOf v k) := by
  interval_cases k <;> rfl

end Sys2Proof.Machine
end

