-- ==== Sys2Proof/Laws/Table.lean ====
section
/-! SUPPORT. The table memory: a read after a write, every operation keeps the canonical form and the place it writes to, and what the
table that TBLINIT builds reads as. -/

namespace Sys2Proof.Machine

theorem listedByte_insertCell (cells : List Host.Cell) (addr x : Nat) (b : Byte) :
    listedByte (insertCell cells addr b) x = if x = addr then some b else listedByte cells x := by
  induction cells with
  | nil => simp [insertCell, listedByte, eq_comm]
  | cons cell rest ih =>
    simp only [insertCell]
    split
    · simp [listedByte, eq_comm]
    · split
      · rename_i h; subst h
        simp only [listedByte]
        by_cases hx : cell.1 = x
        · simp [hx]
        · simp [hx, Ne.symm hx]
      · rename_i h
        simp only [listedByte, ih]
        by_cases hx : cell.1 = x
        · subst hx; simp [Ne.symm h]
        · simp [hx]

theorem listedByte_eq_none {cells : List Host.Cell} {x : Nat} (h : ∀ c ∈ cells, c.1 ≠ x) : listedByte cells x = none := by
  induction cells with
  | nil => rfl
  | cons cell rest ih =>
    simp only [List.mem_cons, forall_eq_or_imp] at h
    simp [listedByte, h.1, ih h.2]

theorem listedByte_eraseCell {cells : List Host.Cell} (hs : cells.Pairwise fun c d => c.1 < d.1) (addr x : Nat) :
    listedByte (eraseCell cells addr) x = if x = addr then none else listedByte cells x := by
  induction cells with
  | nil => simp [eraseCell, listedByte]
  | cons cell rest ih =>
    rw [List.pairwise_cons] at hs
    simp only [eraseCell]
    by_cases hc : cell.1 = addr
    · rw [if_pos hc]
      by_cases hx : x = addr
      · rw [if_pos hx]
        exact listedByte_eq_none fun d hd => by have := hs.1 d hd; omega
      · rw [if_neg hx]; simp [listedByte, hc, Ne.symm hx]
    · rw [if_neg hc]
      simp only [listedByte, ih hs.2]
      by_cases hx : cell.1 = x
      · have : ¬ x = addr := by omega
        simp [hx, this]
      · simp [hx]

theorem mem_eraseCell {cells : List Host.Cell} {addr : Nat} {c : Host.Cell} (h : c ∈ eraseCell cells addr) : c ∈ cells := by
  induction cells with
  | nil => simp [eraseCell] at h
  | cons cell rest ih =>
    simp only [eraseCell] at h
    split at h
    · exact List.mem_cons_of_mem _ h
    · rcases List.mem_cons.1 h with h | h
      · exact h ▸ List.mem_cons_self
      · exact List.mem_cons_of_mem _ (ih h)

theorem mem_insertCell {cells : List Host.Cell} {addr : Nat} {b : Byte} {c : Host.Cell} (h : c ∈ insertCell cells addr b) :
    c = (addr, b) ∨ c ∈ cells := by
  induction cells with
  | nil => simpa [insertCell] using h
  | cons cell rest ih =>
    simp only [insertCell] at h
    split at h
    · simpa using h
    · split at h
      · rcases List.mem_cons.1 h with h | h
        · exact .inl h
        · exact .inr (List.mem_cons_of_mem _ h)
      · rcases List.mem_cons.1 h with h | h
        · exact .inr (h ▸ List.mem_cons_self)
        · exact (ih h).imp id (List.mem_cons_of_mem _)

theorem pairwise_eraseCell {cells : List Host.Cell} (hs : cells.Pairwise fun c d => c.1 < d.1) (addr : Nat) :
    (eraseCell cells addr).Pairwise fun c d => c.1 < d.1 := by
  induction cells with
  | nil => simp [eraseCell]
  | cons cell rest ih =>
    rw [List.pairwise_cons] at hs
    simp only [eraseCell]
    split
    · exact hs.2
    · exact List.pairwise_cons.2 ⟨fun d hd => hs.1 d (mem_eraseCell hd), ih hs.2⟩

theorem pairwise_insertCell {cells : List Host.Cell} (hs : cells.Pairwise fun c d => c.1 < d.1) (addr : Nat) (b : Byte) :
    (insertCell cells addr b).Pairwise fun c d => c.1 < d.1 := by
  induction cells with
  | nil => simp [insertCell]
  | cons cell rest ih =>
    have hp := List.pairwise_cons.1 hs
    simp only [insertCell]
    split
    · rename_i h
      refine List.pairwise_cons.2 ⟨fun d hd => ?_, hs⟩
      rcases List.mem_cons.1 hd with rfl | hd
      · exact h
      · exact h.trans (hp.1 d hd)
    · split
      · rename_i h
        exact List.pairwise_cons.2 ⟨fun d hd => by simpa [h] using hp.1 d hd, hp.2⟩
      · refine List.pairwise_cons.2 ⟨fun d hd => ?_, ih hp.2⟩
        rcases mem_insertCell hd with rfl | hd
        · show cell.1 < addr; omega
        · exact hp.1 d hd

/-- Writing a byte keeps the canonical form. -/
theorem Memory.writeByte_wf {m : Memory} (h : m.wf) (addr : Nat) (b : Byte) : (m.writeByte addr b).wf := by
  unfold Memory.writeByte
  split
  · exact ⟨pairwise_eraseCell h.1 addr, fun c hc => h.2 c (mem_eraseCell hc)⟩
  · rename_i hb
    refine ⟨pairwise_insertCell h.1 addr b, fun c hc => ?_⟩
    rcases mem_insertCell hc with rfl | hc
    · exact hb
    · exact h.2 c hc

@[simp] theorem Memory.writeByte_fill (m : Memory) (addr : Nat) (b : Byte) : (m.writeByte addr b).fill = m.fill := by
  unfold Memory.writeByte; split <;> rfl

/-- A read after a write: the written place holds the byte, every other place is as before. -/
theorem Memory.readByte_writeByte {m : Memory} (h : m.wf) (addr x : Nat) (b : Byte) :
    (m.writeByte addr b).readByte x = if x = addr then b else m.readByte x := by
  unfold Memory.writeByte Memory.readByte
  split
  · rename_i hb
    simp only [listedByte_eraseCell h.1]
    by_cases hx : x = addr
    · simp [hx, hb]
    · simp [hx]
  · simp only [listedByte_insertCell]
    by_cases hx : x = addr <;> simp [hx]

/-- Every listed cell lies below a bound. -/
def Memory.below (m : Memory) (bound : Nat) : Prop := ∀ c ∈ m.cells, c.1 < bound

theorem Memory.writeByte_below {m : Memory} {bound addr : Nat} (h : m.below bound) (ha : addr < bound) (b : Byte) :
    (m.writeByte addr b).below bound := by
  unfold Memory.writeByte Memory.below at *
  split
  · exact fun c hc => h c (mem_eraseCell hc)
  · intro c hc
    rcases mem_insertCell hc with rfl | hc
    · exact ha
    · exact h c hc

theorem Memory.writeBytes_wf {m : Memory} (h : m.wf) (addr : Nat) (bs : List Byte) : (m.writeBytes addr bs).wf := by
  induction bs generalizing m addr with
  | nil => exact h
  | cons b bs ih => exact ih (Memory.writeByte_wf h addr b) (addr + 1)

@[simp] theorem Memory.writeBytes_fill (m : Memory) (addr : Nat) (bs : List Byte) : (m.writeBytes addr bs).fill = m.fill := by
  induction bs generalizing m addr with
  | nil => rfl
  | cons b bs ih => simp [Memory.writeBytes, ih]

theorem Memory.writeBytes_below {m : Memory} {bound addr : Nat} {bs : List Byte} (h : m.below bound)
    (ha : addr + bs.length ≤ bound) : (m.writeBytes addr bs).below bound := by
  induction bs generalizing m addr with
  | nil => exact h
  | cons b bs ih =>
    simp only [List.length_cons] at ha
    exact ih (Memory.writeByte_below h (by omega) b) (by omega)

/-- A read after writing a run of bytes: inside the run the written byte, outside as before. -/
theorem Memory.readByte_writeBytes {m : Memory} (h : m.wf) (addr x : Nat) (bs : List Byte) :
    (m.writeBytes addr bs).readByte x =
      if addr ≤ x ∧ x < addr + bs.length then bs.getD (x - addr) 0 else m.readByte x := by
  induction bs generalizing m addr with
  | nil =>
    simp [Memory.writeBytes]
  | cons b bs ih =>
    rw [Memory.writeBytes, ih (Memory.writeByte_wf h addr b), Memory.readByte_writeByte h]
    simp only [List.length_cons]
    by_cases hx : x = addr
    · subst hx
      rw [if_neg (by omega), if_pos rfl, if_pos (by omega)]
      simp
    · rw [if_neg hx]
      by_cases hr : addr + 1 ≤ x ∧ x < addr + 1 + bs.length
      · rw [if_pos hr, if_pos (by omega), show x - addr = (x - (addr + 1)) + 1 by omega]
        rfl
      · rw [if_neg hr, if_neg (by omega)]

theorem usableImage_length {image : PageImage} {bytes : List Byte} (h : usableImage image = some bytes) :
    bytes.length = pageBytes := by
  unfold usableImage at h
  split at h
  · simp at h
  · split at h
    · simp_all
    · simp at h

theorem Memory.loadPages_wf {m : Memory} (h : m.wf) (p : Nat) (images : List PageImage) : (m.loadPages p images).wf := by
  induction images generalizing m p with
  | nil => exact h
  | cons image rest ih =>
    simp only [Memory.loadPages]
    split
    · exact ih (Memory.writeBytes_wf h _ _) _
    · exact ih h _

@[simp] theorem Memory.loadPages_fill (m : Memory) (p : Nat) (images : List PageImage) : (m.loadPages p images).fill = m.fill := by
  induction images generalizing m p with
  | nil => rfl
  | cons image rest ih =>
    simp only [Memory.loadPages]
    split <;> simp [ih]

theorem Memory.loadPages_below {m : Memory} {p n : Nat} {images : List PageImage} (h : m.below (pageBytes * n))
    (hp : p + images.length ≤ n) : (m.loadPages p images).below (pageBytes * n) := by
  induction images generalizing m p with
  | nil => exact h
  | cons image rest ih =>
    simp only [List.length_cons] at hp
    simp only [Memory.loadPages]
    split
    · rename_i bytes hb
      refine ih (Memory.writeBytes_below h ?_) (by omega)
      rw [usableImage_length hb]
      have : pageBytes * (p + 1) ≤ pageBytes * n := Nat.mul_le_mul_left _ (by omega)
      rwa [Nat.mul_succ] at this
    · exact ih h (by omega)

/-- The byte at an address of page q after loading the images of the pages from p on: byte `x mod 2^23` of that page's image where a
usable one was presented, as before elsewhere. -/
theorem Memory.readByte_loadPages {m : Memory} (h : m.wf) (p x : Nat) (images : List PageImage) :
    (m.loadPages p images).readByte x =
      match (if p ≤ x / pageBytes then images[x / pageBytes - p]? else none).bind usableImage with
      | some bytes => bytes.getD (x % pageBytes) 0
      | none => m.readByte x := by
  induction images generalizing m p with
  | nil => simp [Memory.loadPages]
  | cons image rest ih =>
    simp only [Memory.loadPages]
    have key : ∀ m' : Memory, m'.wf → (x / pageBytes ≠ p → m'.readByte x = m.readByte x) →
        (x / pageBytes = p → m'.readByte x = match usableImage image with
          | some bytes => bytes.getD (x % pageBytes) 0
          | none => m.readByte x) →
        (m'.loadPages (p + 1) rest).readByte x =
          match (if p ≤ x / pageBytes then (image :: rest)[x / pageBytes - p]? else none).bind usableImage with
          | some bytes => bytes.getD (x % pageBytes) 0
          | none => m.readByte x := by
      intro m' hm' hne heq
      rw [ih hm']
      rcases Nat.lt_trichotomy (x / pageBytes) p with hlt | he | hgt
      · rw [if_neg (by omega), if_neg (by omega)]
        simpa using hne (by omega)
      · rw [if_neg (by omega), if_pos (by omega), he]
        simpa using heq he
      · rw [if_pos (by omega), if_pos (by omega), show x / pageBytes - p = (x / pageBytes - (p + 1)) + 1 by omega,
          List.getElem?_cons_succ, hne (by omega)]
    have hdiv := Nat.div_add_mod x pageBytes
    have hmod := Nat.mod_lt x (show 0 < pageBytes by decide)
    split
    · rename_i bytes hb
      have hlen := usableImage_length hb
      refine key _ (Memory.writeBytes_wf h _ _) (fun hne => ?_) (fun he => ?_)
      · rw [Memory.readByte_writeBytes h, if_neg]
        rw [hlen]
        intro hc
        have : x / pageBytes = p := by
          rw [Nat.div_eq_iff (by decide), Nat.mul_comm p]
          exact ⟨hc.1, by omega⟩
        exact hne this
      · rw [Memory.readByte_writeBytes h, if_pos, hb]
        · show bytes.getD (x - pageBytes * p) 0 = bytes.getD (x % pageBytes) 0
          congr 1
          rw [← he]; omega
        · rw [hlen, ← he]; omega
    · rename_i hb
      exact key _ h (fun _ => rfl) (fun _ => by rw [hb])

theorem Memory.computed_wf : Memory.computed.wf := ⟨List.Pairwise.nil, fun _ hc => by simp [Memory.computed] at hc⟩

/-- A table with no byte listed is in canonical form, whatever its content reads as. -/
theorem Memory.wf_of_no_cells (f : Fill) : Memory.wf { fill := f, cells := [] } :=
  ⟨List.Pairwise.nil, fun _ h => nomatch h⟩

/-- The memory after reset is in canonical form. -/
theorem State.reset_memory_wf : State.reset.shared.tbl.wf := Memory.wf_of_no_cells _

/-- The table that TBLINIT builds is in canonical form, within its pages, over the computed content. -/
theorem buildTable_wf (n : Nat) (images : List PageImage) :
    (buildTable n images).wf ∧ (buildTable n images).below (pageBytes * n) ∧ (buildTable n images).fill = .computed := by
  refine ⟨Memory.loadPages_wf Memory.computed_wf _ _, Memory.loadPages_below ?_ ?_, by simp [buildTable, Memory.computed]⟩
  · intro c hc; simp [Memory.computed] at hc
  · simp [List.length_take]

/-- A word is the little-endian word of its eight bytes (20_memory.md R57). -/
theorem Memory.readWord_eq (m : Memory) (i : Nat) : m.readWord i = le8inv fun k => m.readByte (8 * i + k) := by
  unfold Memory.readWord overlayWord
  refine le8inv_congr fun k hk => ?_
  simp only [Memory.readByte, unlistedByte]
  rw [show (8 * i + k) / 8 = i by omega, show (8 * i + k) % 8 = k by omega]

/-- Where no byte of a word is listed, it reads as the unlisted word. -/
theorem Memory.readWord_unlisted {m : Memory} {i : Nat} (h : ∀ k, k < 8 → listedByte m.cells (8 * i + k) = none) :
    m.readWord i = unlistedWord m.fill i := by
  unfold Memory.readWord overlayWord
  rw [le8inv_congr (c := byteOf (unlistedWord m.fill i)) (fun k hk => by simp [h k hk])]
  exact le8inv_byteOf _

end Sys2Proof.Machine
end

