-- ==== Sys2Proof/Laws/Resolver.lean ====
section
/-! SUPPORT. What the resolver, the feedback step and the permutation can do to the shared state: they count, and nothing else; and what
they answer does not depend on the counts. -/

namespace Sys2Proof.Machine

/-- The shared state with `h` more hits and `m` more misses counted (10_state.md R33). -/
def Shared.counted (sh : Shared) (h m : Nat) : Shared :=
  { sh with
    cntCalls := sh.cntCalls + BitVec.ofNat 64 (h + m)
    cntHits := sh.cntHits + BitVec.ofNat 64 h
    cntMisses := sh.cntMisses + BitVec.ofNat 64 m }

@[simp] theorem Shared.counted_tbl (sh : Shared) (h m : Nat) : (sh.counted h m).tbl = sh.tbl := rfl
@[simp] theorem Shared.counted_tblPages (sh : Shared) (h m : Nat) : (sh.counted h m).tblPages = sh.tblPages := rfl
@[simp] theorem Shared.counted_cntCalls (sh : Shared) (h m : Nat) :
    (sh.counted h m).cntCalls = sh.cntCalls + BitVec.ofNat 64 (h + m) := rfl
@[simp] theorem Shared.counted_cntHits (sh : Shared) (h m : Nat) :
    (sh.counted h m).cntHits = sh.cntHits + BitVec.ofNat 64 h := rfl
@[simp] theorem Shared.counted_cntMisses (sh : Shared) (h m : Nat) :
    (sh.counted h m).cntMisses = sh.cntMisses + BitVec.ofNat 64 m := rfl

@[simp] theorem Shared.counted_zero (sh : Shared) : sh.counted 0 0 = sh := by simp [Shared.counted]

theorem Shared.counted_counted (sh : Shared) (h m h' m' : Nat) :
    (sh.counted h m).counted h' m' = sh.counted (h + h') (m + m') := by
  simp only [Shared.counted, BitVec.add_assoc, ← BitVec.ofNat_add]
  rw [show h + m + (h' + m') = h + h' + (m + m') by omega]

theorem Shared.counted_comm (sh : Shared) (h m h' m' : Nat) :
    (sh.counted h m).counted h' m' = (sh.counted h' m').counted h m := by
  rw [Shared.counted_counted, Shared.counted_counted, Nat.add_comm h, Nat.add_comm m]

theorem Shared.countHit_eq (sh : Shared) : sh.countHit = sh.counted 1 0 := by simp [Shared.countHit, Shared.counted]
theorem Shared.countMiss_eq (sh : Shared) : sh.countMiss = sh.counted 0 1 := by simp [Shared.countMiss, Shared.counted]

/-- `Resolve` counts one hit or one miss and changes nothing else (41_table_and_resolver.md R114). -/
theorem resolveIndex_shared (i : Word) (sh : Shared) :
    (resolveIndex i sh).2 = if sh.covers i.toNat then sh.counted 1 0 else sh.counted 0 1 := by
  unfold resolveIndex
  split <;> simp [Shared.countHit_eq, Shared.countMiss_eq]

/-- `Resolve` reads the table and the page count only: counts do not matter to its value, and are added to (R122). -/
theorem resolveIndex_counted (i : Word) (sh : Shared) (h m : Nat) :
    resolveIndex i (sh.counted h m) = ((resolveIndex i sh).1, (resolveIndex i sh).2.counted h m) := by
  have hc : (sh.counted h m).covers i.toNat = sh.covers i.toNat := rfl
  refine Prod.ext ?_ ?_
  · simp only [resolveIndex, hc]
    split <;> rfl
  · simp only [resolveIndex_shared, hc]
    split <;> rw [Shared.counted_comm]

theorem feedback_counted (cfg : Config) (a : Lanes) (sh : Shared) (h m : Nat) :
    feedback cfg a (sh.counted h m) = ((feedback cfg a sh).1, (feedback cfg a sh).2.counted h m) := by
  simp [feedback, resolveIndex_counted]

@[simp] theorem extendedRounds_zero (cfg : Config) (a : Lanes) (sh : Shared) : extendedRounds cfg 0 a sh = (a, sh) := rfl

theorem extendedRounds_succ (cfg : Config) (n : Nat) (a : Lanes) (sh : Shared) :
    extendedRounds cfg (n + 1) a sh = extendedRound cfg (extendedRounds cfg n a sh) n := by
  simp [extendedRounds, List.range_succ]

@[simp] theorem plainRounds_zero (a : Lanes) : plainRounds 0 a = a := rfl

theorem plainRounds_succ (n : Nat) (a : Lanes) : plainRounds (n + 1) a = keccakRound (plainRounds n a) n := by
  simp [plainRounds, List.range_succ]

theorem extendedRounds_counted (cfg : Config) (n : Nat) (a : Lanes) (sh : Shared) (h m : Nat) :
    extendedRounds cfg n a (sh.counted h m) = ((extendedRounds cfg n a sh).1, (extendedRounds cfg n a sh).2.counted h m) := by
  induction n with
  | zero => rfl
  | succ n ih => simp only [extendedRounds_succ, ih, extendedRound, feedback_counted]

/-- Extended rounds count one hit or miss each and change nothing else of the shared state. -/
theorem extendedRounds_shared (cfg : Config) (n : Nat) (a : Lanes) (sh : Shared) :
    ∃ h m, h + m = n ∧ (extendedRounds cfg n a sh).2 = sh.counted h m := by
  induction n with
  | zero => exact ⟨0, 0, rfl, by simp⟩
  | succ n ih =>
    obtain ⟨h, m, hn, he⟩ := ih
    rw [extendedRounds_succ]
    simp only [extendedRound, feedback, resolveIndex_shared, he]
    split
    · exact ⟨h + 1, m, by omega, by rw [Shared.counted_counted]; rfl⟩
    · exact ⟨h, m + 1, by omega, by rw [Shared.counted_counted]; rfl⟩

@[simp] theorem keccakP_plain (cfg : Config) (a : Lanes) (sh : Shared) : keccakP cfg .plain a sh = (keccakPlain a, sh) := rfl

theorem keccakP_extended (cfg : Config) (a : Lanes) (sh : Shared) :
    keccakP cfg .extended a sh = extendedRounds cfg 24 a sh := rfl

theorem keccakPlain_eq (a : Lanes) : keccakPlain a = plainRounds 24 a := rfl

/-- What a permutation call can do to the shared state: nothing in Plain mode, 24 counted resolutions in Extended mode. -/
theorem keccakP_shared (cfg : Config) (mode : Mode) (a : Lanes) (sh : Shared) :
    ∃ h m, (h + m = match mode with | .plain => 0 | .extended => rounds) ∧ (keccakP cfg mode a sh).2 = sh.counted h m := by
  cases mode with
  | plain => exact ⟨0, 0, rfl, by simp [keccakP]⟩
  | extended => exact extendedRounds_shared cfg rounds a sh

theorem keccakP_counted (cfg : Config) (mode : Mode) (a : Lanes) (sh : Shared) (h m : Nat) :
    keccakP cfg mode a (sh.counted h m) = ((keccakP cfg mode a sh).1, (keccakP cfg mode a sh).2.counted h m) := by
  cases mode with
  | plain => rfl
  | extended => exact extendedRounds_counted cfg rounds a sh h m

end Sys2Proof.Machine
end

