-- ==== Sys2Proof/Laws/Sponge.lean ====
section
/-! SUPPORT. What absorbing a byte, padding and finalizing can do to a context, whatever the permutation. -/

namespace Sys2Proof.Machine

variable {σ : Type} (perm : Perm σ) (b : Byte) (c : Context) (x : σ)

/-- The accumulator with byte b placed at the byte index (43_sponge_context.md R173). -/
def Context.accumulated (c : Context) (b : Byte) : Word := c.saved ||| (zext64 b <<< (8 * c.byteIdx.toNat))

/-- The lanes with a completed word folded into the current rate lane. -/
def Context.folded (c : Context) (b : Byte) : Lanes := xorLane c.lanes c.cursor.toNat (c.accumulated b)

/-- A byte that completes no word. -/
theorem absorbByte_within_word (h : c.byteIdx.toNat + 1 ≠ 8) :
    absorbByte perm b c x = ({ c with saved := c.accumulated b, byteIdx := c.byteIdx + 1 }, x) := by
  simp [absorbByte, h, Context.accumulated]

/-- A byte that completes a word but no block. -/
theorem absorbByte_word (h : c.byteIdx.toNat + 1 = 8) (hc : c.cursor.toNat + 1 ≠ rate) :
    absorbByte perm b c x = ({ c with lanes := c.folded b, saved := 0, byteIdx := 0, cursor := c.cursor + 1 }, x) := by
  simp [absorbByte, h, hc, Context.folded, Context.accumulated]

/-- A byte that completes a block. -/
theorem absorbByte_block (h : c.byteIdx.toNat + 1 = 8) (hc : c.cursor.toNat + 1 = rate) :
    absorbByte perm b c x =
      ({ c with lanes := (perm (c.folded b) x).1, saved := 0, byteIdx := 0, cursor := 0 }, (perm (c.folded b) x).2) := by
  simp [absorbByte, h, hc, Context.folded, Context.accumulated]

/-- Everything absorbing a byte can do. -/
theorem absorbByte_cases :
    (c.byteIdx.toNat + 1 ≠ 8 ∧
      absorbByte perm b c x = ({ c with saved := c.accumulated b, byteIdx := c.byteIdx + 1 }, x)) ∨
    (c.byteIdx.toNat + 1 = 8 ∧ c.cursor.toNat + 1 ≠ rate ∧
      absorbByte perm b c x = ({ c with lanes := c.folded b, saved := 0, byteIdx := 0, cursor := c.cursor + 1 }, x)) ∨
    (c.byteIdx.toNat + 1 = 8 ∧ c.cursor.toNat + 1 = rate ∧
      absorbByte perm b c x =
        ({ c with lanes := (perm (c.folded b) x).1, saved := 0, byteIdx := 0, cursor := 0 }, (perm (c.folded b) x).2)) := by
  by_cases h : c.byteIdx.toNat + 1 = 8
  · by_cases hc : c.cursor.toNat + 1 = rate
    · exact .inr (.inr ⟨h, hc, absorbByte_block perm b c x h hc⟩)
    · exact .inr (.inl ⟨h, hc, absorbByte_word perm b c x h hc⟩)
  · exact .inl ⟨h, absorbByte_within_word perm b c x h⟩

@[simp] theorem absorbByte_sealed : (absorbByte perm b c x).1.sealed = c.sealed := by
  obtain ⟨_, h⟩ | ⟨_, _, h⟩ | ⟨_, _, h⟩ := absorbByte_cases perm b c x <;> rw [h]

@[simp] theorem absorbBytes_nil : absorbBytes perm [] c x = (c, x) := rfl

theorem absorbBytes_cons (bs : List Byte) :
    absorbBytes perm (b :: bs) c x = absorbBytes perm bs (absorbByte perm b c x).1 (absorbByte perm b c x).2 := rfl

/-- Absorbing a concatenation is absorbing its parts in turn (43_sponge_context.md R168). -/
theorem absorbBytes_append (bs ds : List Byte) :
    absorbBytes perm (bs ++ ds) c x = absorbBytes perm ds (absorbBytes perm bs c x).1 (absorbBytes perm bs c x).2 := by
  induction bs generalizing c x with
  | nil => rfl
  | cons b bs ih => simp only [List.cons_append, absorbBytes_cons, ih]

/-- A byte that completes no word, at the head of a message. -/
theorem absorbBytes_within_word (bs : List Byte) (h : c.byteIdx.toNat + 1 ≠ 8) :
    absorbBytes perm (b :: bs) c x =
      absorbBytes perm bs { c with saved := c.accumulated b, byteIdx := c.byteIdx + 1 } x := by
  rw [absorbBytes_cons, absorbByte_within_word perm b c x h]

/-- The eight bytes of a word, accumulated one after another, are the word. -/
theorem accumulated_bytes (v : Word) :
    (((((((((0 : Word) |||
      zext64 (byteOf v 0) <<< (8 * BitVec.toNat (0 : BitVec 3))) |||
      zext64 (byteOf v 1) <<< (8 * BitVec.toNat (0 + 1 : BitVec 3))) |||
      zext64 (byteOf v 2) <<< (8 * BitVec.toNat (0 + 1 + 1 : BitVec 3))) |||
      zext64 (byteOf v 3) <<< (8 * BitVec.toNat (0 + 1 + 1 + 1 : BitVec 3))) |||
      zext64 (byteOf v 4) <<< (8 * BitVec.toNat (0 + 1 + 1 + 1 + 1 : BitVec 3))) |||
      zext64 (byteOf v 5) <<< (8 * BitVec.toNat (0 + 1 + 1 + 1 + 1 + 1 : BitVec 3))) |||
      zext64 (byteOf v 6) <<< (8 * BitVec.toNat (0 + 1 + 1 + 1 + 1 + 1 + 1 : BitVec 3))) |||
      zext64 (byteOf v 7) <<< (8 * BitVec.toNat (0 + 1 + 1 + 1 + 1 + 1 + 1 + 1 : BitVec 3))) = v := by
  apply BitVec.eq_of_getLsbD_eq
  intro j hj
  simp only [byteOf, zext64]
  interval_cases j <;> simp

/-- Eight bytes absorbed at a word boundary fold their word into the current rate lane (43_sponge_context.md R168). -/
theorem absorbBytes_le8 (v : Word) (hs : c.saved = 0) (hi : c.byteIdx = 0) :
    absorbBytes perm (le8 v) c x =
      if c.cursor.toNat + 1 = rate then
        ({ c with lanes := (perm (xorLane c.lanes c.cursor.toNat v) x).1, saved := 0, byteIdx := 0, cursor := 0 },
          (perm (xorLane c.lanes c.cursor.toNat v) x).2)
      else ({ c with lanes := xorLane c.lanes c.cursor.toNat v, saved := 0, byteIdx := 0, cursor := c.cursor + 1 }, x) := by
  obtain ⟨a, sv, bi, cu, se⟩ := c
  simp only at hs hi
  subst hs hi
  rw [le8]
  iterate 7 rw [absorbBytes_within_word _ _ _ _ _ (show _ ≠ _ by simp only []; decide)]
  rw [absorbBytes_cons, absorbBytes_nil, absorbByte]
  simp only [Context.accumulated, accumulated_bytes]
  rw [if_pos (by decide)]

theorem byteIdx_succ_toNat (n : BitVec 3) (h : n.toNat + 1 ≠ 8) : (n + 1).toNat = n.toNat + 1 := by
  have := n.isLt; simp; omega

theorem cursor_succ_toNat (n : BitVec 4) (h : n.toNat ≤ 8) : (n + 1).toNat = n.toNat + 1 := by
  simp; omega

/-- Padding with its two constants written out (43_sponge_context.md R166). -/
theorem pad_eq : pad c =
    xorLane (xorLane c.lanes c.cursor.toNat (c.saved ^^^ (0x06#64 <<< (8 * c.byteIdx.toNat)))) 8 0x8000000000000000#64 := rfl

/-- Padding leaves the capacity lanes alone (43_sponge_context.md R166). -/
theorem lane_pad_capacity {l : Nat} (h : c.cursor.toNat ≤ 8) (hl : 9 ≤ l) : lane (pad c) l = lane c.lanes l := by
  unfold pad
  rw [lane_xorLane_ne _ _ _ _ (by omega), lane_xorLane_ne _ _ _ _ (by omega)]

@[simp] theorem finalize_sealed : (finalize perm c x).1.sealed = true := rfl
@[simp] theorem finalize_lanes : (finalize perm c x).1.lanes = (perm (pad c) x).1 := rfl
@[simp] theorem finalize_saved : (finalize perm c x).1.saved = c.saved := rfl
@[simp] theorem finalize_byteIdx : (finalize perm c x).1.byteIdx = c.byteIdx := rfl
@[simp] theorem finalize_cursor : (finalize perm c x).1.cursor = c.cursor := rfl
@[simp] theorem finalize_carried : (finalize perm c x).2 = (perm (pad c) x).2 := rfl

end Sys2Proof.Machine
end

