-- ==== Sys2Proof/Laws/State.lean ====
section
/-! SUPPORT. The state after each update, field by field, all true by definition, so that no later proof unfolds a record update. -/

namespace Sys2Proof.Machine

section
variable (s : State) (r : Response)

@[simp] theorem State.respond_cfg : (s.respond r).cfg = s.cfg := rfl
@[simp] theorem State.respond_below : (s.respond r).below = s.below := rfl
@[simp] theorem State.respond_eng : (s.respond r).eng = s.eng := rfl
@[simp] theorem State.respond_above : (s.respond r).above = s.above := rfl
@[simp] theorem State.respond_shared : (s.respond r).shared = s.shared := rfl
@[simp] theorem State.respond_opnd : (s.respond r).opnd = s.opnd := rfl
@[simp] theorem State.respond_ioOk : (s.respond r).ioOk = s.ioOk := rfl
@[simp] theorem State.respond_images : (s.respond r).images = s.images := rfl
@[simp] theorem State.respond_resp : (s.respond r).resp = some r := rfl
@[simp] theorem State.respond_port : (s.respond r).port = s.port := rfl
@[simp] theorem State.respond_freeCount : (s.respond r).freeCount = s.freeCount := rfl

end

section
variable (s : State) (c : Context)

@[simp] theorem State.withContext_cfg : (s.withContext c).cfg = s.cfg := rfl
@[simp] theorem State.withContext_below : (s.withContext c).below = s.below := rfl
@[simp] theorem State.withContext_eng_toContext : (s.withContext c).eng.toContext = c := rfl
@[simp] theorem State.withContext_eng_lanes : (s.withContext c).eng.lanes = c.lanes := rfl
@[simp] theorem State.withContext_eng_saved : (s.withContext c).eng.saved = c.saved := rfl
@[simp] theorem State.withContext_eng_byteIdx : (s.withContext c).eng.byteIdx = c.byteIdx := rfl
@[simp] theorem State.withContext_eng_cursor : (s.withContext c).eng.cursor = c.cursor := rfl
@[simp] theorem State.withContext_eng_sealed : (s.withContext c).eng.sealed = c.sealed := rfl
@[simp] theorem State.withContext_eng_fault : (s.withContext c).eng.fault = s.eng.fault := rfl
@[simp] theorem State.withContext_above : (s.withContext c).above = s.above := rfl
@[simp] theorem State.withContext_shared : (s.withContext c).shared = s.shared := rfl
@[simp] theorem State.withContext_opnd : (s.withContext c).opnd = s.opnd := rfl
@[simp] theorem State.withContext_ioOk : (s.withContext c).ioOk = s.ioOk := rfl
@[simp] theorem State.withContext_images : (s.withContext c).images = s.images := rfl
@[simp] theorem State.withContext_resp : (s.withContext c).resp = s.resp := rfl
@[simp] theorem State.withContext_port : (s.withContext c).port = s.port := rfl
@[simp] theorem State.withContext_freeCount : (s.withContext c).freeCount = s.freeCount := rfl

end

section
variable (s : State) (sh : Shared)

@[simp] theorem State.withShared_cfg : (s.withShared sh).cfg = s.cfg := rfl
@[simp] theorem State.withShared_below : (s.withShared sh).below = s.below := rfl
@[simp] theorem State.withShared_eng : (s.withShared sh).eng = s.eng := rfl
@[simp] theorem State.withShared_above : (s.withShared sh).above = s.above := rfl
@[simp] theorem State.withShared_shared : (s.withShared sh).shared = sh := rfl
@[simp] theorem State.withShared_opnd : (s.withShared sh).opnd = s.opnd := rfl
@[simp] theorem State.withShared_ioOk : (s.withShared sh).ioOk = s.ioOk := rfl
@[simp] theorem State.withShared_images : (s.withShared sh).images = s.images := rfl
@[simp] theorem State.withShared_resp : (s.withShared sh).resp = s.resp := rfl
@[simp] theorem State.withShared_port : (s.withShared sh).port = s.port := rfl
@[simp] theorem State.withShared_freeCount : (s.withShared sh).freeCount = s.freeCount := rfl

end

section
variable (s : State) (code : BitVec 3)

@[simp] theorem State.withFault_cfg : (s.withFault code).cfg = s.cfg := rfl
@[simp] theorem State.withFault_below : (s.withFault code).below = s.below := rfl
@[simp] theorem State.withFault_eng_toContext : (s.withFault code).eng.toContext = s.eng.toContext := rfl
@[simp] theorem State.withFault_eng_lanes : (s.withFault code).eng.lanes = s.eng.lanes := rfl
@[simp] theorem State.withFault_eng_saved : (s.withFault code).eng.saved = s.eng.saved := rfl
@[simp] theorem State.withFault_eng_byteIdx : (s.withFault code).eng.byteIdx = s.eng.byteIdx := rfl
@[simp] theorem State.withFault_eng_cursor : (s.withFault code).eng.cursor = s.eng.cursor := rfl
@[simp] theorem State.withFault_eng_sealed : (s.withFault code).eng.sealed = s.eng.sealed := rfl
@[simp] theorem State.withFault_eng_fault : (s.withFault code).eng.fault = code := rfl
@[simp] theorem State.withFault_above : (s.withFault code).above = s.above := rfl
@[simp] theorem State.withFault_shared : (s.withFault code).shared = s.shared := rfl
@[simp] theorem State.withFault_opnd : (s.withFault code).opnd = s.opnd := rfl
@[simp] theorem State.withFault_ioOk : (s.withFault code).ioOk = s.ioOk := rfl
@[simp] theorem State.withFault_images : (s.withFault code).images = s.images := rfl
@[simp] theorem State.withFault_resp : (s.withFault code).resp = s.resp := rfl
@[simp] theorem State.withFault_port : (s.withFault code).port = s.port := rfl
@[simp] theorem State.withFault_freeCount : (s.withFault code).freeCount = s.freeCount := rfl

end

section
variable (s : State) (l : Nat) (v : Word)

@[simp] theorem State.writeLane_cfg : (s.writeLane l v).cfg = s.cfg := rfl
@[simp] theorem State.writeLane_below : (s.writeLane l v).below = s.below := rfl
@[simp] theorem State.writeLane_eng_lanes : (s.writeLane l v).eng.lanes = setLane s.eng.lanes l v := rfl
@[simp] theorem State.writeLane_eng_saved : (s.writeLane l v).eng.saved = s.eng.saved := rfl
@[simp] theorem State.writeLane_eng_byteIdx : (s.writeLane l v).eng.byteIdx = s.eng.byteIdx := rfl
@[simp] theorem State.writeLane_eng_cursor : (s.writeLane l v).eng.cursor = s.eng.cursor := rfl
@[simp] theorem State.writeLane_eng_sealed : (s.writeLane l v).eng.sealed = s.eng.sealed := rfl
@[simp] theorem State.writeLane_eng_fault : (s.writeLane l v).eng.fault = s.eng.fault := rfl
@[simp] theorem State.writeLane_above : (s.writeLane l v).above = s.above := rfl
@[simp] theorem State.writeLane_shared : (s.writeLane l v).shared = s.shared := rfl
@[simp] theorem State.writeLane_opnd : (s.writeLane l v).opnd = s.opnd := rfl
@[simp] theorem State.writeLane_ioOk : (s.writeLane l v).ioOk = s.ioOk := rfl
@[simp] theorem State.writeLane_images : (s.writeLane l v).images = s.images := rfl
@[simp] theorem State.writeLane_resp : (s.writeLane l v).resp = s.resp := rfl
@[simp] theorem State.writeLane_port : (s.writeLane l v).port = s.port := rfl
@[simp] theorem State.writeLane_freeCount : (s.writeLane l v).freeCount = s.freeCount := rfl

end

section
variable (s : State) (m : Mode)

@[simp] theorem State.permute_cfg : (s.permute m).cfg = s.cfg := rfl
@[simp] theorem State.permute_below : (s.permute m).below = s.below := rfl
@[simp] theorem State.permute_eng_lanes : (s.permute m).eng.lanes = (keccakP s.cfg m s.eng.lanes s.shared).1 := rfl
@[simp] theorem State.permute_eng_saved : (s.permute m).eng.saved = s.eng.saved := rfl
@[simp] theorem State.permute_eng_byteIdx : (s.permute m).eng.byteIdx = s.eng.byteIdx := rfl
@[simp] theorem State.permute_eng_cursor : (s.permute m).eng.cursor = s.eng.cursor := rfl
@[simp] theorem State.permute_eng_sealed : (s.permute m).eng.sealed = s.eng.sealed := rfl
@[simp] theorem State.permute_eng_fault : (s.permute m).eng.fault = s.eng.fault := rfl
@[simp] theorem State.permute_above : (s.permute m).above = s.above := rfl
@[simp] theorem State.permute_shared : (s.permute m).shared = (keccakP s.cfg m s.eng.lanes s.shared).2 := rfl
@[simp] theorem State.permute_opnd : (s.permute m).opnd = s.opnd := rfl
@[simp] theorem State.permute_ioOk : (s.permute m).ioOk = s.ioOk := rfl
@[simp] theorem State.permute_images : (s.permute m).images = s.images := rfl
@[simp] theorem State.permute_resp : (s.permute m).resp = s.resp := rfl
@[simp] theorem State.permute_port : (s.permute m).port = s.port := rfl
@[simp] theorem State.permute_freeCount : (s.permute m).freeCount = s.freeCount := rfl

end

section
variable (s : State) (m : Mode) (b : Byte)

@[simp] theorem State.absorb_cfg : (s.absorb m b).cfg = s.cfg := rfl
@[simp] theorem State.absorb_below : (s.absorb m b).below = s.below := rfl
@[simp] theorem State.absorb_eng_toContext : (s.absorb m b).eng.toContext = (absorbByte (keccakP s.cfg m) b s.eng.toContext s.shared).1 := rfl
@[simp] theorem State.absorb_eng_fault : (s.absorb m b).eng.fault = s.eng.fault := rfl
@[simp] theorem State.absorb_above : (s.absorb m b).above = s.above := rfl
@[simp] theorem State.absorb_shared : (s.absorb m b).shared = (absorbByte (keccakP s.cfg m) b s.eng.toContext s.shared).2 := rfl
@[simp] theorem State.absorb_opnd : (s.absorb m b).opnd = s.opnd := rfl
@[simp] theorem State.absorb_ioOk : (s.absorb m b).ioOk = s.ioOk := rfl
@[simp] theorem State.absorb_images : (s.absorb m b).images = s.images := rfl
@[simp] theorem State.absorb_resp : (s.absorb m b).resp = s.resp := rfl
@[simp] theorem State.absorb_port : (s.absorb m b).port = s.port := rfl
@[simp] theorem State.absorb_freeCount : (s.absorb m b).freeCount = s.freeCount := rfl

end

section
variable (s : State) (m : Mode)

@[simp] theorem State.finalize_cfg : (s.finalize m).cfg = s.cfg := rfl
@[simp] theorem State.finalize_below : (s.finalize m).below = s.below := rfl
@[simp] theorem State.finalize_eng_toContext : (s.finalize m).eng.toContext = (Machine.finalize (keccakP s.cfg m) s.eng.toContext s.shared).1 := rfl
@[simp] theorem State.finalize_eng_fault : (s.finalize m).eng.fault = s.eng.fault := rfl
@[simp] theorem State.finalize_above : (s.finalize m).above = s.above := rfl
@[simp] theorem State.finalize_shared : (s.finalize m).shared = (Machine.finalize (keccakP s.cfg m) s.eng.toContext s.shared).2 := rfl
@[simp] theorem State.finalize_opnd : (s.finalize m).opnd = s.opnd := rfl
@[simp] theorem State.finalize_ioOk : (s.finalize m).ioOk = s.ioOk := rfl
@[simp] theorem State.finalize_images : (s.finalize m).images = s.images := rfl
@[simp] theorem State.finalize_resp : (s.finalize m).resp = s.resp := rfl
@[simp] theorem State.finalize_port : (s.finalize m).port = s.port := rfl
@[simp] theorem State.finalize_freeCount : (s.finalize m).freeCount = s.freeCount := rfl

end

section
variable (s : State)

@[simp] theorem State.tableBuilt_cfg : (s.tableBuilt).cfg = s.cfg := rfl
@[simp] theorem State.tableBuilt_below : (s.tableBuilt).below = s.below := rfl
@[simp] theorem State.tableBuilt_eng : (s.tableBuilt).eng = s.eng := rfl
@[simp] theorem State.tableBuilt_above : (s.tableBuilt).above = s.above := rfl
@[simp] theorem State.tableBuilt_shared_tbl : (s.tableBuilt).shared.tbl = buildTable s.cfg.pageCount s.images := rfl
@[simp] theorem State.tableBuilt_shared_tblPages : (s.tableBuilt).shared.tblPages = BitVec.ofNat 45 s.cfg.pageCount := rfl
@[simp] theorem State.tableBuilt_shared_cntCalls : (s.tableBuilt).shared.cntCalls = s.shared.cntCalls := rfl
@[simp] theorem State.tableBuilt_shared_cntHits : (s.tableBuilt).shared.cntHits = s.shared.cntHits := rfl
@[simp] theorem State.tableBuilt_shared_cntMisses : (s.tableBuilt).shared.cntMisses = s.shared.cntMisses := rfl
@[simp] theorem State.tableBuilt_opnd : (s.tableBuilt).opnd = s.opnd := rfl
@[simp] theorem State.tableBuilt_ioOk : (s.tableBuilt).ioOk = s.ioOk := rfl
@[simp] theorem State.tableBuilt_images : (s.tableBuilt).images = s.images := rfl
@[simp] theorem State.tableBuilt_resp : (s.tableBuilt).resp = s.resp := rfl
@[simp] theorem State.tableBuilt_port : (s.tableBuilt).port = s.port := rfl
@[simp] theorem State.tableBuilt_freeCount : (s.tableBuilt).freeCount = s.freeCount := rfl

end

section
variable (s : State)

@[simp] theorem State.tableLost_cfg : (s.tableLost).cfg = s.cfg := rfl
@[simp] theorem State.tableLost_below : (s.tableLost).below = s.below := rfl
@[simp] theorem State.tableLost_eng : (s.tableLost).eng = s.eng := rfl
@[simp] theorem State.tableLost_above : (s.tableLost).above = s.above := rfl
@[simp] theorem State.tableLost_shared_tbl : (s.tableLost).shared.tbl = { fill := .unspecified s.freeCount, cells := [] } := rfl
@[simp] theorem State.tableLost_shared_tblPages : (s.tableLost).shared.tblPages = 0 := rfl
@[simp] theorem State.tableLost_shared_cntCalls : (s.tableLost).shared.cntCalls = s.shared.cntCalls := rfl
@[simp] theorem State.tableLost_shared_cntHits : (s.tableLost).shared.cntHits = s.shared.cntHits := rfl
@[simp] theorem State.tableLost_shared_cntMisses : (s.tableLost).shared.cntMisses = s.shared.cntMisses := rfl
@[simp] theorem State.tableLost_opnd : (s.tableLost).opnd = s.opnd := rfl
@[simp] theorem State.tableLost_ioOk : (s.tableLost).ioOk = s.ioOk := rfl
@[simp] theorem State.tableLost_images : (s.tableLost).images = s.images := rfl
@[simp] theorem State.tableLost_resp : (s.tableLost).resp = s.resp := rfl
@[simp] theorem State.tableLost_port : (s.tableLost).port = s.port := rfl
@[simp] theorem State.tableLost_freeCount : (s.tableLost).freeCount = s.freeCount + 1 := rfl

end

section
variable (s : State) (rest : List PortEvent)

@[simp] theorem State.systemReset_cfg : (s.systemReset rest).cfg = s.cfg := rfl
@[simp] theorem State.systemReset_below : (s.systemReset rest).below = s.below.map fun _ => Engine.reset := rfl
@[simp] theorem State.systemReset_eng : (s.systemReset rest).eng = Engine.reset := rfl
@[simp] theorem State.systemReset_above : (s.systemReset rest).above = s.above.map fun _ => Engine.reset := rfl
@[simp] theorem State.systemReset_shared_tbl : (s.systemReset rest).shared.tbl = { fill := .unspecified s.freeCount, cells := [] } := rfl
@[simp] theorem State.systemReset_shared_tblPages : (s.systemReset rest).shared.tblPages = 0 := rfl
@[simp] theorem State.systemReset_shared_cntCalls : (s.systemReset rest).shared.cntCalls = 0 := rfl
@[simp] theorem State.systemReset_shared_cntHits : (s.systemReset rest).shared.cntHits = 0 := rfl
@[simp] theorem State.systemReset_shared_cntMisses : (s.systemReset rest).shared.cntMisses = 0 := rfl
@[simp] theorem State.systemReset_opnd : (s.systemReset rest).opnd = 0 := rfl
@[simp] theorem State.systemReset_ioOk : (s.systemReset rest).ioOk = true := rfl
@[simp] theorem State.systemReset_images : (s.systemReset rest).images = [] := rfl
@[simp] theorem State.systemReset_resp : (s.systemReset rest).resp = none := rfl
@[simp] theorem State.systemReset_port : (s.systemReset rest).port = rest := rfl
@[simp] theorem State.systemReset_freeCount : (s.systemReset rest).freeCount = s.freeCount + 1 := rfl

end

end Sys2Proof.Machine
end

