-- ==== Sys2Proof/Laws/Ops.lean ====
section
/-! SUPPORT. What each shared operation of Machine/Ops.lean can do, said once: the checks of 60_exceptions.md R197, raising and
refusing a fault, and taking a command from the port. -/

namespace Sys2Proof.Machine

theorem State.faulted_iff (s : State) : s.faulted = true ↔ s.eng.fault ≠ 0 := by simp [State.faulted]

theorem unlessFaulted_live {s : State} (h : s.eng.fault = 0) (r : Result) : unlessFaulted s r = r := by
  simp [unlessFaulted, State.faulted, h]

theorem unlessFaulted_faulted {s : State} (h : s.eng.fault ≠ 0) (r : Result) : unlessFaulted s r = refuseFaulted s := by
  rw [unlessFaulted, if_pos ((State.faulted_iff s).2 h)]

/-- Check (1): the command's own result on an engine without fault, the refusal on a faulted one. -/
theorem unlessFaulted_cases (s : State) (r : Result) :
    (s.eng.fault = 0 ∧ unlessFaulted s r = r) ∨ (s.eng.fault ≠ 0 ∧ unlessFaulted s r = refuseFaulted s) := by
  by_cases h : s.eng.fault = 0
  · exact .inl ⟨h, unlessFaulted_live h r⟩
  · exact .inr ⟨h, unlessFaulted_faulted h r⟩

theorem unlessSealed_ready {s : State} (h : s.eng.fault = 0) (hs : s.eng.sealed = false) (r : Result) : unlessSealed s r = r := by
  simp [unlessSealed, unlessFaulted_live h, hs]

theorem unlessSealed_sealed {s : State} (h : s.eng.fault = 0) (hs : s.eng.sealed = true) (r : Result) :
    unlessSealed s r = raiseFault .sealedUse s := by
  simp [unlessSealed, unlessFaulted_live h, hs]

/-- Checks (1) and (3) of the commands that a sealed context refuses. -/
theorem unlessSealed_cases (s : State) (r : Result) :
    (s.eng.fault = 0 ∧ s.eng.sealed = false ∧ unlessSealed s r = r) ∨
    (s.eng.fault = 0 ∧ s.eng.sealed = true ∧ unlessSealed s r = raiseFault .sealedUse s) ∨
    (s.eng.fault ≠ 0 ∧ unlessSealed s r = refuseFaulted s) := by
  by_cases h : s.eng.fault = 0
  · cases hs : s.eng.sealed
    · exact .inl ⟨h, rfl, unlessSealed_ready h hs r⟩
    · exact .inr (.inl ⟨h, rfl, unlessSealed_sealed h hs r⟩)
  · exact .inr (.inr ⟨h, unlessFaulted_faulted h _⟩)

/-- Raising a fault always goes on: the code in `FAULT` and in the response (60_exceptions.md R190). -/
theorem raiseFault_eq (f : FaultCode) (s : State) :
    raiseFault f s = .next ((s.withFault f.code).respond (.fault f.code)) := rfl

theorem refuseFaulted_eq (s : State) : refuseFaulted s = .next (s.respond (.refused s.eng.fault)) := rfl

theorem answer_eq (s : State) (r : Response) : answer s r = .next (s.respond r) := rfl

/-- An illegal command raises `ILLEGAL_CMD` or, on a faulted engine, is refused. -/
theorem illegalCommand_cases (s : State) :
    (s.eng.fault = 0 ∧ illegalCommand s = raiseFault .illegalCmd s) ∨
    (s.eng.fault ≠ 0 ∧ illegalCommand s = refuseFaulted s) := unlessFaulted_cases s _

/-- The codes of the four faults are 1 to 4 (60_exceptions.md R191). -/
theorem FaultCode.code_bounds (f : FaultCode) : 1 ≤ f.code.toNat ∧ f.code.toNat ≤ 4 := by cases f <;> decide

theorem laneExists_iff (l : BitVec 5) : laneExists l = true ↔ l.toNat < 25 := by simp [laneExists]; omega

/-- The CSR exists exactly for the numbers 0 to 6 (10_state.md R30). -/
theorem State.csr_isSome (s : State) (n : BitVec 3) : (s.csr n).isSome = csrExists n := by
  rw [State.csr, csrExists]
  have h := n.isLt
  generalize n.toNat = k at *
  interval_cases k <;> rfl

/-- Taking a command addressed to an engine the system has. -/
theorem State.accept_eq {s : State} {c : Command} {e : Engine} (h : s.engines[c.engine]? = some e) (rest : List PortEvent) :
    s.accept c rest = some { s with
      below := s.engines.take c.engine
      eng := e
      above := s.engines.drop (c.engine + 1)
      opnd := c.opnd
      ioOk := c.ioOk
      images := c.images
      port := rest } := by
  obtain ⟨hlt, he⟩ := List.getElem?_eq_some_iff.1 h
  rw [State.accept, List.drop_eq_getElem_cons hlt]
  simp [he]

theorem State.accept_none {s : State} {c : Command} (h : s.engines.length ≤ c.engine) (rest : List PortEvent) :
    s.accept c rest = none := by
  rw [State.accept, List.drop_eq_nil_of_le h]

/-- Taking a command moves no engine and changes none. -/
theorem State.accept_engines {s t : State} {c : Command} {rest : List PortEvent} (h : s.accept c rest = some t) :
    t.engines = s.engines := by
  unfold State.accept at h
  split at h
  · simp at h
  · rename_i e es he
    obtain rfl := Option.some.inj h
    show s.engines.take c.engine ++ e :: es = s.engines
    rw [← he, List.take_append_drop]

/-- What else taking a command leaves as it was. -/
theorem State.accept_rest {s t : State} {c : Command} {rest : List PortEvent} (h : s.accept c rest = some t) :
    t.cfg = s.cfg ∧ t.shared = s.shared ∧ t.resp = s.resp ∧ t.freeCount = s.freeCount ∧ t.port = rest ∧
      t.opnd = c.opnd ∧ t.ioOk = c.ioOk ∧ t.images = c.images ∧ t.below.length = c.engine := by
  unfold State.accept at h
  split at h
  · simp at h
  · rename_i e es he
    obtain rfl := Option.some.inj h
    have : c.engine < s.engines.length := by
      by_contra hn
      rw [List.drop_eq_nil_of_le (by omega)] at he
      simp at he
    simp [List.length_take]; omega

end Sys2Proof.Machine
end

