-- ==== Sys2Proof/Laws/Commands.lean ====
section
/-! SUPPORT. Everything executing a command can do, said once: every proof about all commands goes through it. -/

namespace Sys2Proof.Machine

theorem unlessFaulted_elim {P : Result → Prop} {s : State} {r : Result} (live : s.eng.fault = 0 → P r)
    (refused : s.eng.fault ≠ 0 → P (refuseFaulted s)) : P (unlessFaulted s r) := by
  rcases unlessFaulted_cases s r with ⟨h, e⟩ | ⟨h, e⟩ <;> rw [e]
  · exact live h
  · exact refused h

theorem unlessSealed_elim {P : Result → Prop} {s : State} {r : Result}
    (ready : s.eng.fault = 0 → s.eng.sealed = false → P r)
    (raised : s.eng.fault = 0 → s.eng.sealed = true → P (raiseFault .sealedUse s))
    (refused : s.eng.fault ≠ 0 → P (refuseFaulted s)) : P (unlessSealed s r) := by
  rcases unlessSealed_cases s r with ⟨h, hs, e⟩ | ⟨h, hs, e⟩ | ⟨h, e⟩ <;> rw [e]
  · exact ready h hs
  · exact raised h hs
  · exact refused h

/-- The command ABSB of a mode. -/
def absbOf : Mode → Byte → Instr
  | .plain, b => .absbP b
  | .extended, b => .absbX b

/-- The command FIN of a mode. -/
def finOf : Mode → Instr
  | .plain => .finP
  | .extended => .finX

/-- The command PERM of a mode. -/
def permOf : Mode → Instr
  | .plain => .permP
  | .extended => .permX

/-- What holds of each result a command can have, with what the state and the command then are, holds of executing it. -/
theorem exec_elim {P : Result → Prop} (i : Instr) (s : State)
    (init : s.eng.fault = 0 → i = .init → P (answer (s.withContext Context.reset) .ok))
    (absb : ∀ m b, s.eng.fault = 0 → s.eng.sealed = false → i = absbOf m b → P (answer (s.absorb m b) .ok))
    (fin : ∀ m, s.eng.fault = 0 → s.eng.sealed = false → i = finOf m →
      P (answer (s.finalize m) (.digest (digest (s.finalize m).eng.lanes))))
    (perm : ∀ m, s.eng.fault = 0 → s.eng.sealed = false → i = permOf m → P (answer (s.permute m) .ok))
    (rdlane : ∀ l, i = .rdlane l → P (answer s (.data64 (lane s.eng.lanes l.toNat))))
    (wrlane : ∀ l, s.eng.fault = 0 → s.eng.sealed = false → i = .wrlane l →
      P (answer (s.writeLane l.toNat s.lowOperand) .ok))
    (reduce : s.eng.fault = 0 → i = .reduce → P (answer s (.data64 (reduceWord s.cfg s.highOperand s.lowOperand))))
    (resolve : s.eng.fault = 0 → i = .resolve →
      P (answer (s.withShared (resolveIndex s.lowOperand s.shared).2) (.data64 (resolveIndex s.lowOperand s.shared).1)))
    (tblinit : s.eng.fault = 0 → i = .tblinit → s.ioOk = true → P (answer s.tableBuilt .ok))
    (tblLost : s.eng.fault = 0 → i = .tblinit → s.ioOk = false → P (raiseFault .tblIo s.tableLost))
    (tblrd : s.eng.fault = 0 → i = .tblrd → P (answer s (.data64 (s.shared.tblRead s.lowOperand))))
    (rdcsr : ∀ n v, i = .rdcsr n → s.csr n = some v → P (answer s (.data64 v)))
    (raised : ∀ f, f ≠ .tblIo → s.eng.fault = 0 → P (raiseFault f s))
    (refused : s.eng.fault ≠ 0 → P (refuseFaulted s)) : P (exec i s) := by
  have illegal : P (illegalCommand s) := unlessFaulted_elim (raised _ (by decide)) refused
  have sealedUse : s.eng.fault = 0 → s.eng.sealed = true → P (raiseFault .sealedUse s) :=
    fun h _ => raised _ (by decide) h
  cases i with
  | init => exact unlessFaulted_elim (fun h => init h rfl) refused
  | absbP b => exact unlessSealed_elim (fun h hs => absb .plain b h hs rfl) sealedUse refused
  | absbX b => exact unlessSealed_elim (fun h hs => absb .extended b h hs rfl) sealedUse refused
  | finP => exact unlessSealed_elim (fun h hs => fin .plain h hs rfl) sealedUse refused
  | finX => exact unlessSealed_elim (fun h hs => fin .extended h hs rfl) sealedUse refused
  | permP => exact unlessSealed_elim (fun h hs => perm .plain h hs rfl) sealedUse refused
  | permX => exact unlessSealed_elim (fun h hs => perm .extended h hs rfl) sealedUse refused
  | rdlane l =>
    show P (if _ then _ else _)
    split
    · exact rdlane l rfl
    · exact illegal
  | wrlane l =>
    show P (if _ then _ else _)
    split
    · exact unlessSealed_elim (fun h hs => wrlane l h hs rfl) sealedUse refused
    · exact illegal
  | reduce => exact unlessFaulted_elim (fun h => reduce h rfl) refused
  | resolve => exact unlessFaulted_elim (fun h => resolve h rfl) refused
  | tblinit =>
    refine unlessFaulted_elim (fun h => ?_) refused
    split
    · exact tblinit h rfl ‹_›
    · exact tblLost h rfl (Bool.eq_false_iff.2 ‹_›)
  | rdcsr n =>
    show P (match s.csr n with | some v => _ | none => _)
    split
    · exact rdcsr n _ rfl ‹_›
    · exact illegal
  | tblrd =>
    refine unlessFaulted_elim (fun h => ?_) refused
    split
    · exact tblrd h rfl
    · exact raised _ (by decide) h

end Sys2Proof.Machine
end

