-- ==== Sys2Proof/Laws/PerInstr.lean ====
section
/-! SUPPORT. Statements made for every command, one lemma per constructor. Family `ZFieldZero`: the word of a command has `Z = 000`
(30_encoding.md R80). -/

namespace Sys2Proof.Laws

theorem zField_append (op b : Byte) (h : op.extractLsb' 0 3 = 0) : zField (op ++ b) = 0 := by
  apply BitVec.eq_of_getLsbD_eq
  intro i hi
  have hb : op.getLsbD i = false := by
    have := congrArg (fun v => v.getLsbD i) h
    simpa [hi] using this
  simp only [zField, BitVec.getLsbD_extractLsb', hi, decide_true, Bool.true_and]
  rw [BitVec.getLsbD_append, if_neg (by omega)]
  simpa using hb

/-- The `Z` field of the command's word is zero. -/
def ZFieldZero.Statement (i : Instr) : Prop := zField (encode i) = 0

theorem ZFieldZero.init : ZFieldZero.Statement .init := rfl
theorem ZFieldZero.absbP (b : Byte) : ZFieldZero.Statement (.absbP b) := zField_append 0x10#8 b rfl
theorem ZFieldZero.absbX (b : Byte) : ZFieldZero.Statement (.absbX b) := zField_append 0x18#8 b rfl
theorem ZFieldZero.finP : ZFieldZero.Statement .finP := rfl
theorem ZFieldZero.finX : ZFieldZero.Statement .finX := rfl
theorem ZFieldZero.permP : ZFieldZero.Statement .permP := rfl
theorem ZFieldZero.permX : ZFieldZero.Statement .permX := rfl
theorem ZFieldZero.rdlane (l : BitVec 5) : ZFieldZero.Statement (.rdlane l) := by revert l; unfold ZFieldZero.Statement; decide
theorem ZFieldZero.wrlane (l : BitVec 5) : ZFieldZero.Statement (.wrlane l) := by revert l; unfold ZFieldZero.Statement; decide
theorem ZFieldZero.reduce : ZFieldZero.Statement .reduce := rfl
theorem ZFieldZero.resolve : ZFieldZero.Statement .resolve := rfl
theorem ZFieldZero.tblinit : ZFieldZero.Statement .tblinit := rfl
theorem ZFieldZero.rdcsr (n : BitVec 3) : ZFieldZero.Statement (.rdcsr n) := by revert n; unfold ZFieldZero.Statement; decide
theorem ZFieldZero.tblrd : ZFieldZero.Statement .tblrd := rfl

end Sys2Proof.Laws
end

