-- ==== Sys2Proof/Machine/Script.lean ====
section
/-! DEFINITION. Command scripts (30_encoding.md R88) and the pseudo-instructions (R89), as terms: what each line of a script stands for as
command words with their operand bus. The letters of the text itself are not modelled (log 18). -/

namespace Sys2Proof.Machine

/-- The names that `RDCSR` takes in place of a number (R88; 10_state.md R30). -/
inductive CsrName where
  | status
  | pos
  | saved
  | cntCalls
  | cntHits
  | cntMisses
  | pages
  deriving DecidableEq, Repr

/-- The number of a named CSR (10_state.md R30). -/
def CsrName.number : CsrName → BitVec 3
  | .status => 0
  | .pos => 1
  | .saved => 2
  | .cntCalls => 3
  | .cntHits => 4
  | .cntMisses => 5
  | .pages => 6

/-- A line of a script: a command with its operands (R88), or a pseudo-instruction (R89). -/
inductive Line where
  /-- A command that takes nothing from the operand bus: formats N, M, B and C, and RDLANE. -/
  | command (i : Instr)
  /-- `RDCSR` with a name. -/
  | rdcsrNamed (c : CsrName)
  /-- `WRLANE l, v`. -/
  | wrlane (l : BitVec 5) (v : Word)
  /-- `REDUCE sel, val`. -/
  | reduce (sel val : Word)
  /-- `RESOLVE idx`. -/
  | resolve (idx : Word)
  /-- `TBLRD idx`. -/
  | tblrd (idx : Word)
  /-- `UPDATE.P b0 b1 ...`. -/
  | updateP (bytes : List Byte)
  /-- `UPDATE.X b0 b1 ...`. -/
  | updateX (bytes : List Byte)
  /-- `PLAINDIGEST b0 b1 ...`. -/
  | plainDigest (bytes : List Byte)
  /-- `EXTDIGEST b0 b1 ...`. -/
  | extDigest (bytes : List Byte)
  /-- `INITTABLE`. -/
  | initTable
  deriving DecidableEq, Repr

/-- A script line by line, or a part of it repeated: `REP n` (R89). -/
inductive Script where
  | lines (ls : List Line)
  | rep (n : Nat) (body : Script)
  | append (first second : Script)
  deriving DecidableEq, Repr

/-- A command as it is issued: the command and its operand bus. -/
abbrev Issue := Instr × OpndBus

/-- A command that ignores the operand bus, issued with zeros on it. -/
def issue (i : Instr) : Issue := (i, 0)

/-- The commands a line stands for (R88, R89). -/
def Line.expand : Line → List Issue
  | .command i => [issue i]
  | .rdcsrNamed c => [issue (.rdcsr c.number)]
  | .wrlane l v => [(.wrlane l, 0#64 ++ v)]
  | .reduce sel val => [(.reduce, sel ++ val)]
  | .resolve idx => [(.resolve, 0#64 ++ idx)]
  | .tblrd idx => [(.tblrd, 0#64 ++ idx)]
  | .updateP bytes => bytes.map fun b => issue (.absbP b)
  | .updateX bytes => bytes.map fun b => issue (.absbX b)
  | .plainDigest bytes => issue .init :: bytes.map (fun b => issue (.absbP b)) ++ [issue .finP]
  | .extDigest bytes => issue .init :: bytes.map (fun b => issue (.absbX b)) ++ [issue .finX]
  | .initTable => [issue .tblinit]

/-- The commands a script stands for, top to bottom (R88, R89). -/
def Script.expand : Script → List Issue
  | .lines ls => ls.flatMap Line.expand
  | .rep n body => (List.replicate n body.expand).flatten
  | .append first second => first.expand ++ second.expand

/-- The script issued to an engine, every command with the same draws of the host. -/
def Script.events (engine : Nat) (ioOk : Bool) (images : List PageImage) (s : Script) : List PortEvent :=
  s.expand.map fun c =>
    .command { engine := engine, word := encode c.1, opnd := c.2, ioOk := ioOk, images := images }

end Sys2Proof.Machine
end

