-- ==== Sys2Proof/Tests/Slice0.lean ====
section
/-! SUPPORT. Tests on single steps, their expected values from the worked examples and vectors of spec/, and for every statement with
hypotheses a concrete state and operands that meet them. -/

namespace Sys2Proof.Tests

open Sys2Proof Sys2Proof.Machine

/-! Well-formedness -/

theorem test_lane25_refused : (Instr.rdlane 25).wf = false ∧ (Instr.wrlane 31).wf = false := by decide
theorem test_lane24_accepted : (Instr.rdlane 24).wf = true ∧ (Instr.wrlane 24).wf = true := by decide
theorem test_csr7_refused : (Instr.rdcsr 7).wf = false ∧ (Instr.rdcsr 6).wf = true := by decide
theorem test_tier_without_space_refused : Tier.ofNumbers 5 0 = none := by decide
theorem test_tier_limit_too_large_refused : Tier.ofNumbers (2 ^ 64 + 1) 1 = none := by decide
theorem test_tier_space_too_large_refused : Tier.ofNumbers 1 (2 ^ 64 + 1) = none := by decide
theorem test_small_space_zero_refused : Config.ofNumbers 0 [] 1 = none := by decide
theorem test_small_space_too_large_refused : Config.ofNumbers (2 ^ 20 + 1) [] 1 = none := by decide
theorem test_page_count_too_large_refused : Config.ofNumbers 1 [] (2 ^ 44 + 1) = none := by decide
theorem test_ill_formed_tier_refused : Config.ofNumbers 1 [(1, 1), (1, 0)] 1 = none := by decide

/-- EXAMPLE-A of 95_test_vectors.md section 2, with one page. -/
def exampleA : Config where
  smallSpaceLessOne := 1023
  tiers := [⟨2 ^ 61, 2 ^ 12 - 1⟩, ⟨2 ^ 62, 2 ^ 14 - 1⟩, ⟨2 ^ 62 + 2 ^ 61, 2 ^ 16 - 1⟩]
  pageCountBound := 1

theorem test_exampleA_accepted :
    Config.ofNumbers 1024 [(2 ^ 61, 2 ^ 12), (2 ^ 62, 2 ^ 14), (2 ^ 62 + 2 ^ 61, 2 ^ 16)] 1 = some exampleA := by decide

/-! Decoding: the word of each command, its fields written out (30_encoding.md R80, R84) -/

theorem test_decode_init : decode 0b0000_0_000_00000000#16 = .ok .init := by decide
theorem test_decode_absbP : decode 0b0001_0_000_10100011#16 = .ok (.absbP 0xA3) := by decide
theorem test_decode_absbX : decode 0b0001_1_000_10100011#16 = .ok (.absbX 0xA3) := by decide
theorem test_decode_finP : decode 0b0010_0_000_00000000#16 = .ok .finP := by decide
theorem test_decode_finX : decode 0b0010_1_000_00000000#16 = .ok .finX := by decide
theorem test_decode_permP : decode 0b0011_0_000_00000000#16 = .ok .permP := by decide
theorem test_decode_permX : decode 0b0011_1_000_00000000#16 = .ok .permX := by decide
theorem test_decode_rdlane : decode 0b0100_0_000_000_11000#16 = .ok (.rdlane 24) := by decide
theorem test_decode_wrlane : decode 0b0101_0_000_000_01000#16 = .ok (.wrlane 8) := by decide
theorem test_decode_reduce : decode 0b0110_0_000_00000000#16 = .ok .reduce := by decide
theorem test_decode_resolve : decode 0b0111_0_000_00000000#16 = .ok .resolve := by decide
theorem test_decode_tblinit : decode 0b1000_0_000_00000000#16 = .ok .tblinit := by decide
theorem test_decode_rdcsr : decode 0b1001_0_000_00000_110#16 = .ok (.rdcsr 6) := by decide
theorem test_decode_tblrd : decode 0b1010_0_000_00000000#16 = .ok .tblrd := by decide

/-- The illegal examples of 30_encoding.md R90, each refused by its clause of R85. -/
theorem test_illegal_words :
    decode 0x4019 = .error .laneAbove24 ∧ decode 0x9007 = .error .csrAbove6 ∧ decode 0x0800 = .error .modeOnModeless ∧
      decode 0x2001 = .error .immediateNotZero ∧ decode 0x1100 = .error .zNotZero ∧ decode 0xB000 = .error .unassignedOp := by
  decide

theorem test_decodeTableWord :
    decodeTableWord 16 0x4018 = some (.rdlane 24) ∧ decodeTableWord 16 0x4019 = none ∧ decodeTableWord 8 0x00 = some .init := by
  decide

/-! States -/

/-- A context in the middle of a message: distinct lanes, a full accumulator but for one byte, the given cursor. -/
def midway (cursor : BitVec 4) : Context where
  lanes := Vector.ofFn fun i => BitVec.ofNat 64 (i.val + 1)
  saved := 0x00A3A3A3A3A3A3A3
  byteIdx := 7
  cursor := cursor
  sealed := false

def fresh : Engine := Engine.reset
def sealedEngine : Engine := { toContext := { midway 8 with sealed := true }, fault := 0 }
def faultedEngine : Engine := { toContext := midway 8, fault := 3 }
def engineAt (cursor : BitVec 4) : Engine := { toContext := midway cursor, fault := 0 }

/-- One page of computed table, with some counts. -/
def onePage : Shared where
  tbl := Memory.computed
  tblPages := 1
  cntCalls := 7
  cntHits := 3
  cntMisses := 4

/-- A system of two engines over one page, under EXAMPLE-A. -/
def system (e : Engine) (opnd : OpndBus) (port : List PortEvent) : State where
  cfg := exampleA
  below := []
  eng := e
  above := [fresh]
  shared := onePage
  opnd := opnd
  ioOk := true
  images := []
  resp := none
  port := port
  freeCount := 1

def commandFor (engine : Nat) (word : CmdWord) : Command :=
  { engine := engine, word := word, opnd := 0, ioOk := true, images := [] }

def responseOf : Result → Option Response
  | .next t => t.resp
  | _ => none

def engineOf : Result → Option Engine
  | .next t => some t.eng
  | _ => none

def sharedOf : Result → Option Shared
  | .next t => some t.shared
  | _ => none

/-! One step of each command -/

/-- 43_sponge_context.md R161, the worked example: INIT after ABSB.P 0x61. -/
theorem test_init : engineOf (exec .init (system { fresh with saved := 0x61, byteIdx := 1 } 0 [])) = some fresh := by decide

/-- R162, the worked example, its third byte. -/
theorem test_absbP : engineOf (exec (.absbP 0x63) (system { fresh with saved := 0x6261, byteIdx := 2 } 0 [])) =
    some { fresh with saved := 0x636261, byteIdx := 3 } := by decide

/-- R173: the eighth byte folds the word into lane CURSOR and advances CURSOR. -/
theorem test_absbP_word : engineOf (exec (.absbP 0xA3) (system { fresh with saved := 0x00A3A3A3A3A3A3A3, byteIdx := 7, cursor := 7 } 0 [])) =
    some { fresh with lanes := zeroLanes.set 7 0xA3A3A3A3A3A3A3A3, cursor := 8 } := by decide +kernel

/-- R163: ABSB.X within a word moves no counter. -/
theorem test_absbX : sharedOf (exec (.absbX 0x61) (system fresh 0 [])) = some onePage ∧
    engineOf (exec (.absbX 0x61) (system fresh 0 [])) = some { fresh with saved := 0x61, byteIdx := 1 } := by decide

/-- R164, the worked example: lane 0 after INIT; FIN.P, and FIN.P seals. -/
theorem test_finP : (engineOf (exec .finP State.reset)).map (fun e => (lane e.lanes 0, e.sealed)) =
    some (0xC59A3AA2CC739FA6, true) := by decide +kernel

/-- R165, R193: FIN.X on a sealed context faults. -/
theorem test_finX_sealed : responseOf (exec .finX (system sealedEngine 0 [])) = some (.fault 2) := by decide

/-- 42_permutation.md R140, the worked example. -/
theorem test_permP : (engineOf (exec .permP State.reset)).map (fun e => (lane e.lanes 0, lane e.lanes 24)) =
    some (0xF1258F7940E1DDE7, 0xEAF1FF7B5CECA249) := by decide +kernel

/-- A table whose word 0 is listed, with every reduction giving index 0: each of the 24 resolutions of PERM.X is a hit (R141). -/
theorem test_permX_counts :
    (sharedOf (exec .permX { system fresh 0 [] with
      cfg := { smallSpaceLessOne := 0, tiers := [⟨2 ^ 64, 0⟩], pageCountBound := 1 }
      shared := { onePage with
        tbl := { fill := .computed, cells := [(0, 1), (1, 2), (2, 3), (3, 4), (4, 5), (5, 6), (6, 7), (7, 8)] } } })).map
      (fun sh => (sh.cntCalls, sh.cntHits, sh.cntMisses)) = some (31, 27, 4) := by decide +kernel

theorem test_rdlane : responseOf (exec (.rdlane 24) (system faultedEngine 0 [])) = some (.data64 25) := by decide

/-- R170: the data is the low half of the operand bus and overwrites the lane. -/
theorem test_wrlane : (engineOf (exec (.wrlane 24) (system (engineAt 3) (0xFF#64 ++ 0x8000000000000001#64) []))).map
    (fun e => lane e.lanes 24) = some 0x8000000000000001 := by decide

/-- 40_reduction.md R105, the worked examples: the fast path and the second tier. -/
theorem test_reduce :
    responseOf (exec .reduce (system fresh (0x8000000000000000#64 ++ 0xFEDCBA9876543210#64) [])) = some (.data64 0x210) ∧
    responseOf (exec .reduce (system fresh (0x2000000000000000#64 ++ 0xFEDCBA9876543210#64) [])) = some (.data64 0x3210) := by
  decide

/-- R105: no tier leaves the value as it is. -/
theorem test_reduce_no_tier :
    responseOf (exec .reduce (system fresh (0x7FFFFFFFFFFFFFFF#64 ++ 0xFEDCBA9876543210#64) [])) =
      some (.data64 0xFEDCBA9876543210) := by decide

/-- 41_table_and_resolver.md R121, the worked example: from reset, a miss. -/
theorem test_resolve : responseOf (exec .resolve { State.reset with opnd := 0x100000 }) = some (.data64 0x596D38DC2142B4E2) := by
  decide +kernel

/-- R116, R118: TBLINIT without `io_ok` raises TBL_IO with no page left. -/
theorem test_tblinit_io : (sharedOf (exec .tblinit { system fresh 0 [] with ioOk := false })).map (fun sh => sh.tblPages) = some 0 ∧
    responseOf (exec .tblinit { system fresh 0 [] with ioOk := false }) = some (.fault 4) := by decide

theorem test_tblinit : (sharedOf (exec .tblinit { system fresh 0 [] with shared := Shared.reset })).map (fun sh => sh.tblPages) = some 1 := by
  decide

/-- 10_state.md R31, R32: STATUS of a sealed engine over a table, and POS in the middle of a message. -/
theorem test_rdcsr : responseOf (exec (.rdcsr 0) (system sealedEngine 0 [])) = some (.data64 3) ∧
    responseOf (exec (.rdcsr 1) (system faultedEngine 0 [])) = some (.data64 0x78) := by decide

/-- 41_table_and_resolver.md R120: the first faulting index. -/
theorem test_tblrd_range : responseOf (exec .tblrd (system fresh 0x100000 [])) = some (.fault 3) := by decide +kernel

/-- A listed word is read little-endian (20_memory.md R57). -/
theorem test_tblrd : responseOf (exec .tblrd { system fresh 1 [] with
    shared := { onePage with
      tbl := { fill := .computed, cells := [(8, 1), (9, 2), (10, 3), (11, 4), (12, 5), (13, 6), (14, 7), (15, 8)] } } }) =
    some (.data64 0x0807060504030201) := by decide +kernel

/-! The step -/

theorem test_step_places_and_runs : responseOf (step (State.reset.withFetchWord 16 0x9006)) = some (.data64 0) := by decide
theorem test_step_illegal : responseOf (step (State.reset.withFetchWord 16 0xB000)) = some (.fault 1) := by decide
theorem test_step_refused : responseOf (step (system faultedEngine 0 [.command (commandFor 0 0x0000)])) = some (.refused 3) := by
  decide

/-- 60_exceptions.md R203: a command for engine 1 leaves engine 0. -/
theorem test_step_other_engine :
    step (system sealedEngine 0 [.command (commandFor 1 0x0000)]) =
      .next { system sealedEngine 0 [] with below := [sealedEngine], eng := fresh, above := [], resp := some .ok } := rfl

/-! Scripts (30_encoding.md R88, R89) -/

theorem test_update_of_no_bytes : (Line.updateX []).expand = [] := rfl
theorem test_plaindigest_words : ((Script.lines [.plainDigest [0x61, 0x62]]).expand.map fun c => encode c.1) =
    [0x0000, 0x1061, 0x1062, 0x2000] := by decide
theorem test_rep_and_operands :
    (Script.append (.rep 2 (.lines [.command (.absbP 0xA3)])) (.lines [.wrlane 8 5, .reduce 1 2, .rdcsrNamed .pages])).expand.map
      (fun c => (encode c.1, c.2)) =
      [(0x10A3, 0), (0x10A3, 0), (0x5008, 5), (0x6000, 0x10000000000000002), (0x9006, 0)] := by decide

/-! The memory -/

/-- Writing what an unlisted byte reads as removes the entry. -/
theorem test_write_removes (b : Byte) (h : b = unlistedByte .computed 5) :
    Memory.writeByte { fill := .computed, cells := [(5, b + 1)] } 5 b = Memory.computed := by
  simp [Memory.writeByte, h, eraseCell, Memory.computed]

theorem test_two_writes_commute (b c : Byte) (hb : b ≠ unlistedByte .computed 1) (hc : c ≠ unlistedByte .computed 0) :
    ((Memory.computed.writeByte 1 b).writeByte 0 c).cells = [(0, c), (1, b)] := by
  simp [Memory.writeByte, Memory.computed, hb, hc, insertCell]

/-! Witnesses: for each statement with hypotheses, values that meet them, at the boundaries of its clauses -/

theorem onePage_tableCorrect : onePage.tableCorrect := by
  intro i _
  show Memory.readWord Memory.computed i.toNat = fallbackHash i
  rw [Memory.readWord_unlisted fun _ _ => rfl]
  simp [unlistedWord, Memory.computed]

theorem witness_DecodeEncodeRoundTrip : (Instr.wrlane 24).wf = true ∧ (Instr.rdcsr 6).wf = true := by decide
theorem witness_EncodeDecodeRoundTrip : decode 0x5018 = .ok (.wrlane 24) := by decide
theorem witness_OpcodeMapSelectsCommand :
    (∃ r ∈ opcodeRows, 0x4018#16 &&& r.mask = r.pattern ∧ (0x4018#16 &&& ~~~r.mask).toNat ≤ r.top) ∧
    (∀ r ∈ opcodeRows, ¬ (0x4019#16 &&& r.mask = r.pattern ∧ (0x4019#16 &&& ~~~r.mask).toNat ≤ r.top)) := by decide
theorem witness_IllegalWordsAreTheSixClauses : decode 0x9007 = .error .csrAbove6 ∧ (system fresh 0 []).live := by decide
theorem witness_ConfigurationsAreTheWellFormedOnes :
    (Config.ofNumbers (2 ^ 20) [(2 ^ 64, 2 ^ 64), (0, 1)] (2 ^ 44)).isSome = true := by decide

theorem witness_StepExecutesTheDecodedCommand :
    let s := system sealedEngine 0 [.command (commandFor 1 0x4018)]
    s.port = .command (commandFor 1 0x4018) :: [] ∧ s.engines[(commandFor 1 0x4018).engine]? = some fresh ∧
      decode (commandFor 1 0x4018).word = .ok (.rdlane 24) := by decide
theorem witness_StepRaisesIllegalCommand :
    let s := system faultedEngine 0 [.command (commandFor 1 0x9007)]
    s.port = .command (commandFor 1 0x9007) :: [] ∧ s.engines[(commandFor 1 0x9007).engine]? = some fresh ∧
      decode (commandFor 1 0x9007).word = .error .csrAbove6 ∧ fresh.fault = 0 := by decide
theorem witness_StepOnFaultedEngine :
    let s := fun w => system faultedEngine 0 [.command (commandFor 0 w)]
    (∀ w, (s w).port = .command (commandFor 0 w) :: []) ∧ (∀ w, (s w).engines[(commandFor 0 w).engine]? = some faultedEngine) ∧
      faultedEngine.fault ≠ 0 ∧
      (∀ l, decode (commandFor 0 0x4019).word ≠ .ok (.rdlane l)) ∧ (∀ n, decode (commandFor 0 0x4019).word ≠ .ok (.rdcsr n)) ∧
      decode (commandFor 0 0x4018).word = .ok (.rdlane 24) ∧ decode (commandFor 0 0x9006).word = .ok (.rdcsr 6) :=
  ⟨fun _ => rfl, fun _ => rfl, by decide, by decide, by decide, by decide, by decide⟩
theorem witness_FaultedEngineStaysUntilReset :
    let s := system faultedEngine 0 [.command (commandFor 0 0x0000)]
    (∃ t, step s = .next t) ∧ s.port.head? ≠ some .reset ∧ s.engines[0]? = some faultedEngine ∧ faultedEngine.fault ≠ 0 :=
  ⟨⟨_, rfl⟩, by decide, by decide, by decide⟩
theorem witness_ResetEventResetsTheSystem : (system faultedEngine 0 [.reset]).port = .reset :: [] := rfl
theorem witness_IdleStepHoldsTheState : (system fresh 0 []).port = [] := rfl
theorem witness_AbsentEngineStops :
    let s := system fresh 0 [.command (commandFor 2 0)]
    s.port = .command (commandFor 2 0) :: [] ∧ s.engines.length ≤ (commandFor 2 0).engine := by decide

/-- Live, ready, sealed and faulted states, as the statements about the commands take them. -/
theorem witness_live_ready_sealed_faulted :
    (system sealedEngine 0 []).live ∧ (system fresh 0 []).ready ∧ (system sealedEngine 0 []).eng.sealed = true ∧
      (system faultedEngine 0 []).eng.fault ≠ 0 := by decide
/-- AbsorbPlainByte and AbsorbExtendedByte: the last byte within a word, the last word within a block, the last byte of a block. -/
theorem witness_AbsorbByte :
    let s := system { engineAt 8 with byteIdx := 6 } 0 []
    (s.ready ∧ s.eng.byteIdx.toNat < 7) ∧
      ((system (engineAt 7) 0 []).ready ∧ (system (engineAt 7) 0 []).eng.byteIdx.toNat = 7 ∧
        (system (engineAt 7) 0 []).eng.cursor.toNat ≠ 8) ∧
      (system (engineAt 8) 0 []).ready ∧ (system (engineAt 8) 0 []).eng.byteIdx.toNat = 7 ∧
        (system (engineAt 8) 0 []).eng.cursor.toNat = 8 := by decide
theorem witness_lanes : (24#5).toNat < 25 ∧ 24 < (25#5).toNat := by decide
/-- ReduceFastPathTiersAndNoTier: the first selector of the fast path, the last before it, a second tier's first, and no tier's first. -/
theorem witness_ReduceFastPathTiersAndNoTier :
    2 ^ 63 ≤ (0x8000000000000000 : Word).toNat ∧
    ((0x2000000000000000 : Word).toNat < 2 ^ 63 ∧ exampleA.tiers[1]? = some ⟨2 ^ 62, 2 ^ 14 - 1⟩ ∧
      (0x2000000000000000 : Word).toNat < Tier.limit ⟨2 ^ 62, 2 ^ 14 - 1⟩ ∧
      ∀ (j : Nat) (u : Tier), j < 1 → exampleA.tiers[j]? = some u → u.limit ≤ (0x2000000000000000 : Word).toNat) ∧
    (0x7FFFFFFFFFFFFFFF : Word).toNat < 2 ^ 63 ∧
      (∀ t ∈ exampleA.tiers, t.limit ≤ (0x6000000000000000 : Word).toNat) := by
  refine ⟨by decide, ⟨by decide, by decide, by decide, ?_⟩, by decide, by decide⟩
  intro j u hj hu
  obtain rfl : j = 0 := by omega
  obtain rfl := Option.some.inj hu
  decide
/-- ResolveCommand, ReadTableCommand: the last covered index and the first uncovered one. -/
theorem witness_covered_range :
    ((0xFFFFF : OpndBus).extractLsb' 0 64).toNat < 2 ^ 20 * onePage.tblPages.toNat ∧
      2 ^ 20 * onePage.tblPages.toNat ≤ ((0x100000 : OpndBus).extractLsb' 0 64).toNat := by decide +kernel
theorem witness_ResolveUnderTableCorrect : onePage.tableCorrect ∧ (0xFFFFF : Word).toNat < 2 ^ 20 * onePage.tblPages.toNat :=
  ⟨onePage_tableCorrect, by decide +kernel⟩
/-- BuildTableCommand: the last entry of the one page, with a usable image, an image one byte short, and none. -/
theorem witness_BuildTableCommand :
    let s := fun images => { system fresh 0 [] with images := images }
    let whole := List.replicate (2 ^ 23) (0 : Byte)
    (∀ im, (s im).live ∧ (s im).ioOk = true) ∧ 0 < exampleA.pageCount ∧ 2 ^ 20 - 1 < 2 ^ 20 ∧
      ((s [some whole]).images[0]? = some (some whole) ∧ whole.length = 2 ^ 23) ∧
      (∀ bytes, (s [some [0]]).images[0]? = some (some bytes) → bytes.length ≠ 2 ^ 23) ∧
      (∀ bytes, (s []).images[0]? = some (some bytes) → bytes.length ≠ 2 ^ 23) ∧
      ({ system fresh 0 [] with ioOk := false }).live := by
  refine ⟨fun _ => ⟨rfl, rfl⟩, by decide, by decide, ⟨rfl, List.length_replicate⟩, ?_, ?_, rfl⟩
  · intro bytes h
    obtain rfl := Option.some.inj (Option.some.inj h)
    simp
  · intro bytes h
    cases h
theorem witness_TableCorrectAfterTrustedImages :
    (system fresh 0 []).live ∧ (system fresh 0 []).ioOk = true ∧
      ∀ (p : Nat) (bytes : List Byte), (system fresh 0 []).images[p]? ≠ some (some bytes) :=
  ⟨rfl, rfl, fun _ _ h => by simp [system] at h⟩
theorem witness_TableIsImmutable :
    let s := system sealedEngine 0 [.command (commandFor 1 0x0000)]
    (∃ t, step s = .next t) ∧ s.port.head? ≠ some .reset ∧
      (∀ (c : Command) (rest : List PortEvent), s.port = .command c :: rest → decode c.word ≠ .ok .tblinit) := by
  refine ⟨⟨_, rfl⟩, by decide, fun c rest h => ?_⟩
  obtain ⟨rfl, -⟩ : commandFor 1 0x0000 = c ∧ ([] : List PortEvent) = rest := by simpa [system] using h
  decide
/-- The bounds of StepMappingsByLane, RhoFollowsTheWalk, IotaFollowsTheShiftRegister, PermutationByRounds and SerializedViewAndDigest,
each at its last value. -/
theorem witness_bounds : 4 < 5 ∧ 23 < 24 ∧ 24 < 25 ∧ 63 < 64 ∧ 199 < 200 := by decide
theorem witness_ExtendedPermutationIsDetermined :
    exampleA.smallSpace = { exampleA with pageCountBound := 0 }.smallSpace ∧
      exampleA.tiers = { exampleA with pageCountBound := 0 }.tiers ∧
      onePage.tableCorrect ∧ Shared.tableCorrect { onePage with tblPages := 0 } :=
  ⟨rfl, rfl, onePage_tableCorrect, fun i _ => onePage_tableCorrect i (by
    rename_i h
    simp [Shared.covers] at h)⟩
theorem witness_MessageBytesLieInTheirPlaces :
    (Context.reset.saved = 0 ∧ Context.reset.byteIdx = 0 ∧ Context.reset.cursor = 0) ∧
      (List.replicate 71 (0xA3 : Byte)).length < 72 ∧ (List.replicate 72 (0xA3 : Byte)).length = 72 := by decide
theorem witness_PaddingByLane : (midway 8).cursor.toNat ≤ 8 := by decide
theorem witness_ShortMessagesForgetTheAbsorbMode : (List.replicate 71 (0xA3 : Byte)).length < 72 := by decide
/-- FaultsArePrecise: a TBLRD out of range, and a TBLINIT whose files fail. -/
theorem witness_FaultsArePrecise :
    (∃ t, exec .tblrd (system sealedEngine (-1) []) = .next t ∧ t.eng.fault ≠ 0 ∧ t.eng.fault ≠ 4) ∧
      (∃ t, exec .tblinit { system fresh 0 [] with ioOk := false } = .next t ∧ t.eng.fault = 4) := by
  refine ⟨⟨((system sealedEngine (-1) []).withFault 3).respond (.fault 3), ?_, by decide, by decide⟩, _, rfl, rfl⟩
  have h : (system sealedEngine (-1) []).shared.covers (system sealedEngine (-1) []).lowOperand.toNat = false := by
    decide +kernel
  simp only [exec, execTblrd, h]
  rfl
theorem witness_FaultedEngineRefusesCommands :
    (system faultedEngine 0 []).eng.fault ≠ 0 ∧ (∀ l, Instr.init ≠ .rdlane l) ∧ (∀ n, Instr.init ≠ .rdcsr n) :=
  ⟨by decide, fun _ => nofun, fun _ => nofun⟩
theorem witness_CountersMoveOnlyByResolving : ∃ t, exec .resolve (system sealedEngine 0 []) = .next t := ⟨_, rfl⟩
theorem witness_CountersAreOnlyDiagnostics : ∀ n, Instr.resolve ≠ .rdcsr n := fun _ => nofun
theorem witness_OtherEnginesAreUntouched :
    let s := system sealedEngine 0 [.command (commandFor 1 0x0000)]
    s.port = .command (commandFor 1 0x0000) :: [] ∧ (∃ t, step s = .next t) ∧ 0 ≠ (commandFor 1 0x0000).engine :=
  ⟨rfl, ⟨_, rfl⟩, by decide⟩
theorem witness_CommandsOnTwoEnginesCommute :
    let s := system sealedEngine 0 []
    let c := commandFor 0 0x7000
    let d := commandFor 1 0x3800
    c.engine ≠ d.engine ∧ c.engine < s.engines.length ∧ d.engine < s.engines.length ∧
      decode c.word ≠ .ok .tblinit ∧ decode d.word ≠ .ok .tblinit ∧
      (∀ n, decode c.word ≠ .ok (.rdcsr n)) ∧ (∀ n, decode d.word ≠ .ok (.rdcsr n)) := by decide
theorem witness_StepKeepsTheInvariant :
    (system (engineAt 8) 0 [.command (commandFor 0 0x9000)]).Inv ∧
      ∃ t, step (system (engineAt 8) 0 [.command (commandFor 0 0x9000)]) = .next t := by
  refine ⟨⟨by decide, .inr rfl, rfl, ⟨List.Pairwise.nil, fun _ h => nomatch h⟩, fun _ h => (nomatch h), fun _ => rfl⟩, _, rfl⟩

end Sys2Proof.Tests
end

section
/-! PROOF. The numbers of R6 and the configurations of R7. Reading its numbers off a well-formed value loses nothing, and
`ofNumbers` is the inverse of that reading; which numbers are well formed is then the range of the reading. -/

namespace Sys2Proof

/-- The two numbers of R6 that a tier stands for. -/
def Tier.numbers (t : Tier) : Nat × Nat := (t.limit, t.space)

theorem Tier.ofNumbers_eq_some_iff {limit space : Nat} {t : Tier} :
    Tier.ofNumbers limit space = some t ↔ t.numbers = (limit, space) := by
  obtain ⟨⟨l, hl⟩, ⟨s, hs⟩⟩ := t
  simp only [Tier.ofNumbers, Tier.numbers, Tier.limit, Tier.space, Option.dite_none_right_eq_some,
    Option.some.injEq, Tier.mk.injEq, Fin.mk.injEq, Prod.mk.injEq, exists_prop]
  omega

theorem tiersOfNumbers_cons_eq_some_iff {limit space : Nat} {rest : List (Nat × Nat)} {ts : List Tier} :
    tiersOfNumbers ((limit, space) :: rest) = some ts ↔
      ∃ t us, ts = t :: us ∧ Tier.ofNumbers limit space = some t ∧ tiersOfNumbers rest = some us := by
  rw [tiersOfNumbers]
  split
  next t us ht hus => simp [ht, hus, eq_comm]
  next hnone =>
    simp only [reduceCtorEq, false_iff]
    rintro ⟨t, us, -, ht, hus⟩
    exact hnone t us ht hus

theorem tiersOfNumbers_eq_some_iff {pairs : List (Nat × Nat)} {ts : List Tier} :
    tiersOfNumbers pairs = some ts ↔ ts.map Tier.numbers = pairs := by
  induction pairs generalizing ts with
  | nil => simp [tiersOfNumbers, eq_comm]
  | cons pair rest ih =>
    obtain ⟨limit, space⟩ := pair
    simp only [tiersOfNumbers_cons_eq_some_iff, Tier.ofNumbers_eq_some_iff, ih, List.map_eq_cons_iff]

theorem Config.ofNumbers_eq_some_iff {small pages : Nat} {pairs : List (Nat × Nat)} {c : Config} :
    Config.ofNumbers small pairs pages = some c ↔
      c.smallSpace = small ∧ c.tiers.map Tier.numbers = pairs ∧ c.pageCount = pages := by
  obtain ⟨⟨m, hm⟩, ts, ⟨n, hn⟩⟩ := c
  rw [← tiersOfNumbers_eq_some_iff]
  cases htiers : tiersOfNumbers pairs with
  | none => simp [Config.ofNumbers, htiers]
  | some us =>
    simp only [Config.ofNumbers, Config.smallSpace, Config.pageCount, htiers, Option.dite_none_right_eq_some,
      Option.some.injEq, Config.mk.injEq, Fin.mk.injEq, exists_prop]
    constructor
    · rintro ⟨⟨⟨hpos, -⟩, -⟩, rfl, rfl, rfl⟩
      exact ⟨Nat.sub_add_cancel hpos, rfl, rfl⟩
    · rintro ⟨rfl, rfl, rfl⟩
      exact ⟨⟨⟨Nat.succ_pos m, hm⟩, hn⟩, rfl, rfl, rfl⟩

theorem Tier.exists_numbers_iff {pair : Nat × Nat} :
    (∃ t : Tier, t.numbers = pair) ↔ pair.1 ≤ 2 ^ 64 ∧ 1 ≤ pair.2 ∧ pair.2 ≤ 2 ^ 64 := by
  obtain ⟨limit, space⟩ := pair
  constructor
  · rintro ⟨t, ht⟩
    obtain ⟨rfl, rfl⟩ := Prod.mk.inj ht
    exact ⟨by simp only [Tier.limit]; omega, by simp [Tier.space], t.spaceLessOne.isLt⟩
  · rintro ⟨hlimit, hpos, hspace⟩
    refine ⟨⟨⟨limit, by omega⟩, ⟨space - 1, by omega⟩⟩, ?_⟩
    simp only [Tier.numbers, Tier.limit, Tier.space, Nat.sub_add_cancel hpos]

theorem exists_map_numbers_iff {pairs : List (Nat × Nat)} :
    (∃ ts : List Tier, ts.map Tier.numbers = pairs) ↔
      ∀ pair ∈ pairs, pair.1 ≤ 2 ^ 64 ∧ 1 ≤ pair.2 ∧ pair.2 ≤ 2 ^ 64 := by
  have mem_range := Set.ext_iff.mp (Set.range_list_map Tier.numbers) pairs
  simpa only [Set.mem_range, Set.mem_ofPred_eq, Tier.exists_numbers_iff] using mem_range

theorem Config.exists_numbers_iff {small pages : Nat} {pairs : List (Nat × Nat)} :
    (∃ c : Config, c.smallSpace = small ∧ c.tiers.map Tier.numbers = pairs ∧ c.pageCount = pages) ↔
      1 ≤ small ∧ small ≤ 2 ^ 20 ∧ (∀ pair ∈ pairs, pair.1 ≤ 2 ^ 64 ∧ 1 ≤ pair.2 ∧ pair.2 ≤ 2 ^ 64) ∧
        pages ≤ 2 ^ 44 := by
  rw [← exists_map_numbers_iff]
  constructor
  · rintro ⟨c, rfl, htiers, rfl⟩
    exact ⟨by simp [Config.smallSpace], c.smallSpaceLessOne.isLt, ⟨c.tiers, htiers⟩,
      Nat.le_of_lt_succ c.pageCountBound.isLt⟩
  · rintro ⟨hpos, hsmall, ⟨ts, htiers⟩, hpages⟩
    refine ⟨⟨⟨small - 1, by omega⟩, ts, ⟨pages, by omega⟩⟩, ?_, htiers, rfl⟩
    simp only [Config.smallSpace, Nat.sub_add_cancel hpos]

/-- Settles O7: `Config.ofNumbers` inverts the reading of R6's numbers, so it answers exactly on the numbers that some
configuration has. -/
theorem configurationsAreTheWellFormedOnes : Obligations.ConfigurationsAreTheWellFormedOnes := by
  intro small tiers pages
  refine ⟨?_, fun c hc => Config.ofNumbers_eq_some_iff.mp hc⟩
  simp only [Config.ofNumbers_eq_some_iff]
  exact Config.exists_numbers_iff

end Sys2Proof
end

section
/-! PROOF. Absorbing a byte, for any permutation: it moves the position of 10_state.md R27 on by one, modulo 72, keeps the ranges of
the context registers, and calls the permutation at most once. -/

namespace Sys2Proof.Machine

section
variable {σ : Type} (perm : Perm σ) (b : Byte) {c : Context} (x : σ)

/-- The number of bytes since the last block began, `8*CURSOR + BYTEIDX` (10_state.md R27). -/
def Context.position (c : Context) : Nat := 8 * c.cursor.toNat + c.byteIdx.toNat

theorem Context.position_reset : Context.reset.position = 0 := rfl

theorem Context.position_lt (h : c.cursor.toNat ≤ 8) : c.position < 72 := by
  have := c.byteIdx.isLt
  unfold Context.position; omega

theorem absorbByte_cursor_le (h : c.cursor.toNat ≤ 8) : (absorbByte perm b c x).1.cursor.toNat ≤ 8 := by
  obtain ⟨-, e⟩ | ⟨-, hc, e⟩ | ⟨-, -, e⟩ := absorbByte_cases perm b c x <;> rw [e]
  · exact h
  · show (c.cursor + 1).toNat ≤ 8
    rw [cursor_succ_toNat _ h]; simp only [rate] at hc; omega
  · exact Nat.zero_le 8

theorem absorbByte_position (h : c.cursor.toNat ≤ 8) :
    (absorbByte perm b c x).1.position = (c.position + 1) % 72 := by
  obtain ⟨hi, e⟩ | ⟨hi, hc, e⟩ | ⟨hi, hc, e⟩ := absorbByte_cases perm b c x <;> rw [e]
  · have := c.byteIdx.isLt
    simp only [Context.position, byteIdx_succ_toNat _ hi]; omega
  · show 8 * (c.cursor + 1).toNat + 0 = (8 * c.cursor.toNat + c.byteIdx.toNat + 1) % 72
    rw [cursor_succ_toNat _ h]; simp only [rate] at hc; omega
  · show 0 = (8 * c.cursor.toNat + c.byteIdx.toNat + 1) % 72
    simp only [rate] at hc; omega

/-- Absorbing a message moves the position on by its length. -/
theorem absorbBytes_position (msg : List Byte) (h : c.cursor.toNat ≤ 8) :
    (absorbBytes perm msg c x).1.position = (c.position + msg.length) % 72 := by
  induction msg generalizing c x with
  | nil => exact (Nat.mod_eq_of_lt (Context.position_lt h)).symm
  | cons b bs ih =>
    rw [absorbBytes_cons, ih _ (absorbByte_cursor_le perm b x h), absorbByte_position perm b x h, List.length_cons]
    omega

/-- A byte placed above the bytes of the accumulator leaves nothing above itself (10_state.md R24). -/
theorem Context.accumulated_shiftRight (h : c.saved >>> (8 * c.byteIdx.toNat) = 0) :
    c.accumulated b >>> (8 * (c.byteIdx.toNat + 1)) = 0 := by
  have saved_zero : c.saved >>> (8 * (c.byteIdx.toNat + 1)) = 0 := by
    rw [Nat.mul_succ, BitVec.shiftRight_add, h]; rfl
  have byte_zero : (zext64 b <<< (8 * c.byteIdx.toNat)) >>> (8 * (c.byteIdx.toNat + 1)) = 0 := by
    apply BitVec.eq_of_getLsbD_eq
    intro j _
    have above_byte : b.getLsbD (8 * (c.byteIdx.toNat + 1) + j - 8 * c.byteIdx.toNat) = false :=
      BitVec.getLsbD_of_ge _ _ (by omega)
    simp [zext64, above_byte]
  rw [Context.accumulated, BitVec.ushiftRight_or_distrib, saved_zero, byte_zero]; rfl

theorem Context.reset_wf : Context.reset.wf := by decide

/-- Absorbing a byte keeps the ranges of `CURSOR` and `SAVED`. -/
theorem absorbByte_wf (h : c.wf) : (absorbByte perm b c x).1.wf := by
  refine ⟨absorbByte_cursor_le perm b x h.1, ?_⟩
  obtain ⟨hi, e⟩ | ⟨-, -, e⟩ | ⟨-, -, e⟩ := absorbByte_cases perm b c x <;> rw [e]
  · show c.accumulated b >>> (8 * (c.byteIdx + 1).toNat) = 0
    rw [byteIdx_succ_toNat _ hi]
    exact Context.accumulated_shiftRight b h.2
  · exact BitVec.zero_ushiftRight
  · exact BitVec.zero_ushiftRight

/-- What absorbing a byte does to the data the permutation carries: nothing, or one permutation call. -/
theorem absorbByte_carried (c : Context) :
    (absorbByte perm b c x).2 = x ∨ (absorbByte perm b c x).2 = (perm (c.folded b) x).2 := by
  obtain ⟨-, e⟩ | ⟨-, -, e⟩ | ⟨-, -, e⟩ := absorbByte_cases perm b c x <;> rw [e]
  · exact .inl rfl
  · exact .inl rfl
  · exact .inr rfl

end

/-- Settles O45: each absorbed byte moves the position on by one, from 0 after INIT. -/
theorem positionCountsTheBytes : Obligations.PositionCountsTheBytes := by
  intro σ perm msg x
  have h := absorbBytes_position (c := Context.reset) perm x msg (by decide)
  rw [Context.position_reset, Nat.zero_add] at h
  exact h.symm

end Sys2Proof.Machine
end

section
/-! PROOF. What a command can do to the counters of 10_state.md R33: every operation counts resolutions, none in Plain mode and 24
in an Extended permutation call, and no command but RESOLVE and the three Extended ones counts any. -/

namespace Sys2Proof

/-- How many resolutions an operation of a mode counts: none, or in Extended mode those of one permutation call. -/
def Mode.Resolves (m : Mode) (n : Nat) : Prop := n = 0 ∨ (m = .extended ∧ n = 24)

/-- How many resolutions a command can count (10_state.md R33, 42_permutation.md R139). -/
def Instr.Resolves (i : Instr) (n : Nat) : Prop :=
  n = 0 ∨ (i = .resolve ∧ n = 1) ∨ (((∃ b, i = .absbX b) ∨ i = .finX ∨ i = .permX) ∧ n = 24)

theorem Mode.Resolves.toInstr {m : Mode} {i : Instr} {n : Nat} (h : m.Resolves n)
    (hi : m = .extended → (∃ b, i = .absbX b) ∨ i = .finX ∨ i = .permX) : i.Resolves n := by
  obtain h | ⟨hm, h⟩ := h
  · exact .inl h
  · exact .inr (.inr ⟨hi hm, h⟩)

end Sys2Proof

namespace Sys2Proof.Machine

/-- What holds of the state a result goes on to, if it does. -/
def Ensures (P : State → Prop) (r : Result) : Prop := ∀ t, r = .next t → P t

section
variable {P : State → Prop} {s : State}

theorem ensures_answer {r : Response} (h : P (s.respond r)) : Ensures P (answer s r) := by
  rintro _ ⟨⟩; exact h

theorem ensures_raiseFault {f : FaultCode} (h : P ((s.withFault f.code).respond (.fault f.code))) :
    Ensures P (raiseFault f s) := ensures_answer h

theorem ensures_refuseFaulted (h : P (s.respond (.refused s.eng.fault))) : Ensures P (refuseFaulted s) := ensures_answer h

end

/-- `sh'` is `sh` with some number of resolutions counted, a number that `p` allows. -/
def Shared.CountedTo (p : Nat → Prop) (sh sh' : Shared) : Prop := ∃ h m, p (h + m) ∧ sh' = sh.counted h m

theorem Shared.countedTo_self (m : Mode) (sh : Shared) : sh.CountedTo m.Resolves sh :=
  ⟨0, 0, .inl rfl, (Shared.counted_zero sh).symm⟩

theorem keccakP_countedTo (cfg : Config) (m : Mode) (a : Lanes) (sh : Shared) :
    sh.CountedTo m.Resolves (keccakP cfg m a sh).2 := by
  obtain ⟨hits, misses, hsum, he⟩ := keccakP_shared cfg m a sh
  refine ⟨hits, misses, ?_, he⟩
  cases m with
  | plain => exact .inl hsum
  | extended => exact .inr ⟨rfl, hsum⟩

theorem State.permute_countedTo (s : State) (m : Mode) : s.shared.CountedTo m.Resolves (s.permute m).shared :=
  keccakP_countedTo ..

theorem State.finalize_countedTo (s : State) (m : Mode) : s.shared.CountedTo m.Resolves (s.finalize m).shared :=
  keccakP_countedTo ..

theorem State.absorb_countedTo (s : State) (m : Mode) (b : Byte) : s.shared.CountedTo m.Resolves (s.absorb m b).shared := by
  rw [State.absorb_shared]
  obtain e | e := absorbByte_carried (keccakP s.cfg m) b s.shared s.eng.toContext <;> rw [e]
  · exact Shared.countedTo_self m _
  · exact keccakP_countedTo ..

theorem resolveIndex_countedTo (i : Word) (sh : Shared) : sh.CountedTo (· = 1) (resolveIndex i sh).2 := by
  rw [resolveIndex_shared]
  split
  · exact ⟨1, 0, rfl, rfl⟩
  · exact ⟨0, 1, rfl, rfl⟩

/-- The counters of `sh'` are those of `sh` with a number of resolutions counted that `p` allows; nothing is said of the table. -/
def Shared.CountersMoved (p : Nat → Prop) (sh sh' : Shared) : Prop :=
  ∃ h m : Nat, sh'.cntCalls = sh.cntCalls + BitVec.ofNat 64 (h + m) ∧ sh'.cntHits = sh.cntHits + BitVec.ofNat 64 h ∧
    sh'.cntMisses = sh.cntMisses + BitVec.ofNat 64 m ∧ p (h + m)

theorem Shared.CountedTo.countersMoved {p q : Nat → Prop} {sh sh' : Shared} (hc : sh.CountedTo p sh') (hpq : ∀ n, p n → q n) :
    sh.CountersMoved q sh' := by
  obtain ⟨h, m, hp, rfl⟩ := hc
  exact ⟨h, m, rfl, rfl, rfl, hpq _ hp⟩

theorem Shared.countersMoved_none {i : Instr} {sh sh' : Shared} (hcalls : sh'.cntCalls = sh.cntCalls)
    (hhits : sh'.cntHits = sh.cntHits) (hmisses : sh'.cntMisses = sh.cntMisses) : sh.CountersMoved i.Resolves sh' :=
  ⟨0, 0, by simp [hcalls], by simp [hhits], by simp [hmisses], .inl rfl⟩

/-- Executing a command counts only what its row of R33 allows. -/
theorem exec_countersMoved (i : Instr) (s : State) :
    Ensures (fun t => s.shared.CountersMoved i.Resolves t.shared) (exec i s) := by
  have unmoved : s.shared.CountersMoved i.Resolves s.shared := Shared.countersMoved_none rfl rfl rfl
  refine exec_elim i s ?init ?absb ?fin ?perm ?rdlane ?wrlane ?reduce ?resolve ?tblinit ?tblLost ?tblrd ?rdcsr ?raised ?refused
  case absb =>
    rintro m b - - rfl
    exact ensures_answer ((s.absorb_countedTo m b).countersMoved fun _ h => h.toInstr fun hm => .inl ⟨b, hm ▸ rfl⟩)
  case fin =>
    rintro m - - rfl
    exact ensures_answer ((s.finalize_countedTo m).countersMoved fun _ h => h.toInstr fun hm => .inr (.inl (hm ▸ rfl)))
  case perm =>
    rintro m - - rfl
    exact ensures_answer ((s.permute_countedTo m).countersMoved fun _ h => h.toInstr fun hm => .inr (.inr (hm ▸ rfl)))
  case resolve =>
    rintro - rfl
    exact ensures_answer ((resolveIndex_countedTo _ _).countersMoved fun _ h => .inr (.inl ⟨rfl, h⟩))
  case init | rdlane | wrlane | reduce | tblrd | rdcsr => intros; exact ensures_answer unmoved
  case tblinit => intros; exact ensures_answer (Shared.countersMoved_none rfl rfl rfl)
  case tblLost => intros; exact ensures_raiseFault (Shared.countersMoved_none rfl rfl rfl)
  case raised => intros; exact ensures_raiseFault unmoved
  case refused => intros; exact ensures_refuseFaulted unmoved

/-- Settles O55: the statement is `exec_countersMoved`, written out. -/
theorem countersMoveOnlyByResolving : Obligations.CountersMoveOnlyByResolving := exec_countersMoved

end Sys2Proof.Machine
end

section
/-! PROOF. The invariant of Safety.lean: reset establishes it, and every operation a step is made of keeps it. -/

namespace Sys2Proof.Machine

theorem Engine.reset_wf : Engine.reset.wf := ⟨Context.reset_wf, Nat.zero_le 4⟩

/-! The shared state -/

/-- A table no page of which is covered and no byte of which is listed. -/
theorem Shared.wf_of_uncovered (n : Nat) {sh : Shared} (hpages : sh.tblPages = 0) (hcells : sh.tbl.cells = [])
    (hcounts : sh.cntCalls = sh.cntHits + sh.cntMisses) : sh.wf n := by
  refine ⟨.inl (by rw [hpages]; rfl), hcounts, ⟨?_, ?_⟩, ?_, fun h => absurd hpages h⟩ <;> simp [hcells]

theorem Shared.counted_wf {n : Nat} {sh : Shared} (hwf : sh.wf n) (h m : Nat) : (sh.counted h m).wf n := by
  obtain ⟨hpages, hcounts, htable⟩ := hwf
  refine ⟨hpages, ?_, htable⟩
  simp only [Shared.counted_cntCalls, Shared.counted_cntHits, Shared.counted_cntMisses, hcounts, BitVec.ofNat_add]
  ac_rfl

theorem Shared.CountedTo.wf {p : Nat → Prop} {n : Nat} {sh sh' : Shared} (hc : sh.CountedTo p sh') (hwf : sh.wf n) :
    sh'.wf n := by
  obtain ⟨h, m, -, rfl⟩ := hc
  exact Shared.counted_wf hwf h m

/-- `TBL_PAGES` can hold `PAGE_COUNT` (00_scope.md R6). -/
theorem Config.toNat_pageCount (cfg : Config) : (BitVec.ofNat 45 cfg.pageCount).toNat = cfg.pageCount := by
  have := cfg.pageCountBound.isLt
  rw [BitVec.toNat_ofNat, Config.pageCount, Nat.mod_eq_of_lt (by omega)]

theorem State.tableBuilt_shared_wf {s : State} (hwf : s.shared.wf s.cfg.pageCount) :
    s.tableBuilt.shared.wf s.cfg.pageCount := by
  obtain ⟨-, hcounts, -⟩ := hwf
  obtain ⟨hcanonical, hbelow, hfill⟩ := buildTable_wf s.cfg.pageCount s.images
  exact ⟨.inr (Config.toNat_pageCount s.cfg), hcounts, hcanonical, hbelow, fun _ => hfill⟩

theorem State.tableLost_shared_wf {s : State} (hwf : s.shared.wf s.cfg.pageCount) :
    s.tableLost.shared.wf s.cfg.pageCount := by
  obtain ⟨-, hcounts, -⟩ := hwf
  exact Shared.wf_of_uncovered _ rfl rfl hcounts

/-! The operations on the state -/

theorem State.inv_iff (s : State) :
    s.Inv ↔ ((∀ e ∈ s.below, e.wf) ∧ s.eng.wf ∧ ∀ e ∈ s.above, e.wf) ∧ s.shared.wf s.cfg.pageCount := by
  simp only [State.Inv, State.engines, List.forall_mem_append, List.forall_mem_cons]

theorem State.Inv.eng_wf {s : State} (h : s.Inv) : s.eng.wf := by
  obtain ⟨⟨-, heng, -⟩, -⟩ := s.inv_iff.1 h
  exact heng

section
variable {s : State} (h : s.Inv)
include h

theorem State.Inv.respond (r : Response) : (s.respond r).Inv := h

/-- Replacing the executing engine by a well-formed one. -/
theorem State.Inv.withEngine {e : Engine} (he : e.wf) : ({ s with eng := e } : State).Inv := by
  obtain ⟨⟨hbelow, -, habove⟩, hshared⟩ := s.inv_iff.1 h
  exact (State.inv_iff _).2 ⟨⟨hbelow, he, habove⟩, hshared⟩

theorem State.Inv.withContext {c : Context} (hc : c.wf) : (s.withContext c).Inv :=
  h.withEngine ⟨hc, h.eng_wf.2⟩

theorem State.Inv.withFault (f : FaultCode) : (s.withFault f.code).Inv :=
  h.withEngine ⟨h.eng_wf.1, f.code_bounds.2⟩

theorem State.Inv.withShared {sh : Shared} (hsh : sh.wf s.cfg.pageCount) : (s.withShared sh).Inv := ⟨h.1, hsh⟩

theorem State.Inv.writeLane (l : Nat) (v : Word) : (s.writeLane l v).Inv := h.withContext h.eng_wf.1

theorem State.Inv.permute (m : Mode) : (s.permute m).Inv :=
  State.Inv.withShared (h.withContext (c := (s.permute m).eng.toContext) h.eng_wf.1) ((s.permute_countedTo m).wf h.2)

theorem State.Inv.finalize (m : Mode) : (s.finalize m).Inv :=
  State.Inv.withShared (h.withContext (c := (s.finalize m).eng.toContext) h.eng_wf.1) ((s.finalize_countedTo m).wf h.2)

theorem State.Inv.absorb (m : Mode) (b : Byte) : (s.absorb m b).Inv :=
  (h.withContext (absorbByte_wf _ b _ h.eng_wf.1)).withShared ((s.absorb_countedTo m b).wf h.2)

theorem State.Inv.tableBuilt : s.tableBuilt.Inv := ⟨h.1, State.tableBuilt_shared_wf (s := s) h.2⟩

theorem State.Inv.tableLost : s.tableLost.Inv := ⟨h.1, State.tableLost_shared_wf (s := s) h.2⟩

theorem State.Inv.accept {t : State} {c : Command} {rest : List PortEvent} (ha : s.accept c rest = some t) : t.Inv := by
  obtain ⟨hcfg, hshared, -⟩ := State.accept_rest ha
  rw [State.Inv, State.accept_engines ha, hshared, hcfg]
  exact h

end

theorem State.systemReset_inv (s : State) (rest : List PortEvent) : (s.systemReset rest).Inv := by
  refine (State.inv_iff _).2 ⟨⟨?_, Engine.reset_wf, ?_⟩, Shared.wf_of_uncovered _ rfl rfl rfl⟩
  · exact List.forall_mem_map.2 fun _ _ => Engine.reset_wf
  · exact List.forall_mem_map.2 fun _ _ => Engine.reset_wf

/-! The step -/

section
variable {s : State} (h : s.Inv)
include h

theorem raiseFault_keeps_inv (f : FaultCode) : Ensures State.Inv (raiseFault f s) :=
  ensures_raiseFault ((h.withFault f).respond _)

theorem refuseFaulted_keeps_inv : Ensures State.Inv (refuseFaulted s) := ensures_refuseFaulted (h.respond _)

theorem exec_keeps_inv (i : Instr) : Ensures State.Inv (exec i s) := by
  refine exec_elim i s ?init ?absb ?fin ?perm ?rdlane ?wrlane ?reduce ?resolve ?tblinit ?tblLost ?tblrd ?rdcsr ?raised ?refused
  case init => intros; exact ensures_answer ((h.withContext Context.reset_wf).respond _)
  case absb => intro m b _ _ _; exact ensures_answer ((h.absorb m b).respond _)
  case fin => intro m _ _ _; exact ensures_answer ((h.finalize m).respond _)
  case perm => intro m _ _ _; exact ensures_answer ((h.permute m).respond _)
  case wrlane => intros; exact ensures_answer ((h.writeLane _ _).respond _)
  case resolve => intros; exact ensures_answer ((h.withShared ((resolveIndex_countedTo _ _).wf h.2)).respond _)
  case tblinit => intros; exact ensures_answer (h.tableBuilt.respond _)
  case tblLost => intros; exact raiseFault_keeps_inv h.tableLost _
  case rdlane | reduce | tblrd | rdcsr => intros; exact ensures_answer (h.respond _)
  case raised => intro f _ _; exact raiseFault_keeps_inv h f
  case refused => intro _; exact refuseFaulted_keeps_inv h

theorem illegalCommand_keeps_inv : Ensures State.Inv (illegalCommand s) :=
  unlessFaulted_elim (fun _ => raiseFault_keeps_inv h _) fun _ => refuseFaulted_keeps_inv h

theorem execWord_keeps_inv (w : CmdWord) : Ensures State.Inv (execWord w s) := by
  unfold execWord
  split
  · exact exec_keeps_inv h _
  · exact illegalCommand_keeps_inv h

theorem executeCommand_keeps_inv (c : Command) (rest : List PortEvent) :
    Ensures State.Inv (executeCommand c rest s) := by
  unfold executeCommand
  split
  case h_1 t ha => exact execWord_keeps_inv (h.accept ha) c.word
  case h_2 => rintro _ ⟨⟩

theorem step_keeps_inv : Ensures State.Inv (step s) := by
  unfold step takeEvent
  split
  case h_1 => rintro _ ⟨⟩; exact h
  case h_2 rest _ => rintro _ ⟨⟩; exact s.systemReset_inv rest
  case h_3 c rest _ => exact executeCommand_keeps_inv h c rest

end

/-- Settles O59: `step_keeps_inv`, the invariant being kept by every operation of Ops.lean that a step is made of. -/
theorem stepKeepsTheInvariant : Obligations.StepKeepsTheInvariant := fun _ t h => step_keeps_inv h t

theorem Engine.mem_reset_engines {e : Engine} (he : e ∈ State.reset.engines) : e = Engine.reset := by
  obtain rfl | ⟨-, rfl⟩ : e = Engine.reset ∨ Config.otherEngines ≠ 0 ∧ e = Engine.reset := by
    simpa [State.engines, State.reset] using he
  all_goals rfl

/-- Settles O60: every engine is `Engine.reset`, and no page of the table is covered. -/
theorem resetMeetsTheInvariant : Obligations.ResetMeetsTheInvariant := by
  refine ⟨fun e he => ?_, Shared.wf_of_uncovered _ rfl rfl rfl⟩
  rw [Engine.mem_reset_engines he]
  exact Engine.reset_wf

end Sys2Proof.Machine
end

section
/-! PROOF. The counters are only diagnostics (10_state.md R33, 60_exceptions.md R204): what is computed from two shared states with the
same table and page count is the same, whatever their counters. -/

namespace Sys2Proof.Machine

/-- The shared states differ in the counters only. -/
def Shared.SameTable (sh sh' : Shared) : Prop := sh'.tbl = sh.tbl ∧ sh'.tblPages = sh.tblPages

theorem Shared.SameTable.covers {sh sh' : Shared} (h : sh.SameTable sh') (i : Nat) : sh'.covers i = sh.covers i := by
  rw [Shared.covers, h.2, Shared.covers]

theorem Shared.SameTable.tblRead {sh sh' : Shared} (h : sh.SameTable sh') (i : Word) : sh'.tblRead i = sh.tblRead i := by
  rw [Shared.tblRead, h.1, Shared.tblRead]

/-- The answer of a resolution is a function of the table, the page count and the index (41_table_and_resolver.md R122). -/
theorem resolveIndex_sameTable {sh sh' : Shared} (h : sh.SameTable sh') (i : Word) :
    (resolveIndex i sh').1 = (resolveIndex i sh).1 ∧ (resolveIndex i sh).2.SameTable (resolveIndex i sh').2 := by
  unfold resolveIndex
  rw [h.covers, h.tblRead]
  split
  · exact ⟨rfl, h⟩
  · exact ⟨rfl, h⟩

theorem feedback_sameTable (cfg : Config) (a : Lanes) {sh sh' : Shared} (h : sh.SameTable sh') :
    (feedback cfg a sh').1 = (feedback cfg a sh).1 ∧ (feedback cfg a sh).2.SameTable (feedback cfg a sh').2 := by
  obtain ⟨hvalue, hshared⟩ := resolveIndex_sameTable h (reduceWord cfg (lane a 1) (lane a 0))
  exact ⟨congrArg (xorLane a 0) hvalue, hshared⟩

theorem extendedRounds_sameTable (cfg : Config) (n : Nat) (a : Lanes) {sh sh' : Shared} (h : sh.SameTable sh') :
    (extendedRounds cfg n a sh').1 = (extendedRounds cfg n a sh).1 ∧
      (extendedRounds cfg n a sh).2.SameTable (extendedRounds cfg n a sh').2 := by
  induction n with
  | zero => exact ⟨rfl, h⟩
  | succ n ih =>
    obtain ⟨hlanes, hshared⟩ := ih
    rw [extendedRounds_succ, extendedRounds_succ, extendedRound, extendedRound, hlanes]
    exact feedback_sameTable cfg _ hshared

theorem keccakP_sameTable (cfg : Config) (m : Mode) (a : Lanes) {sh sh' : Shared} (h : sh.SameTable sh') :
    (keccakP cfg m a sh').1 = (keccakP cfg m a sh).1 ∧ (keccakP cfg m a sh).2.SameTable (keccakP cfg m a sh').2 := by
  cases m with
  | plain => exact ⟨rfl, h⟩
  | extended => exact extendedRounds_sameTable cfg rounds a h

theorem absorbByte_sameTable (cfg : Config) (m : Mode) (b : Byte) (c : Context) {sh sh' : Shared} (h : sh.SameTable sh') :
    (absorbByte (keccakP cfg m) b c sh').1 = (absorbByte (keccakP cfg m) b c sh).1 ∧
      (absorbByte (keccakP cfg m) b c sh).2.SameTable (absorbByte (keccakP cfg m) b c sh').2 := by
  obtain ⟨hlanes, hshared⟩ := keccakP_sameTable cfg m (c.folded b) h
  obtain ⟨hi, e⟩ | ⟨hi, hc, e⟩ | ⟨hi, hc, e⟩ := absorbByte_cases (keccakP cfg m) b c sh <;> rw [e]
  · rw [absorbByte_within_word _ _ _ _ hi]
    exact ⟨rfl, h⟩
  · rw [absorbByte_word _ _ _ _ hi hc]
    exact ⟨rfl, h⟩
  · rw [absorbByte_block _ _ _ _ hi hc, hlanes]
    exact ⟨rfl, hshared⟩

/-! The operations on two states that differ in the counters only -/

section
variable (s : State) {sh : Shared} (h : s.shared.SameTable sh)
include h

theorem State.permute_withShared (m : Mode) :
    ∃ sh', (s.permute m).shared.SameTable sh' ∧ (s.withShared sh).permute m = (s.permute m).withShared sh' := by
  obtain ⟨hlanes, hshared⟩ := keccakP_sameTable s.cfg m s.eng.lanes h
  exact ⟨_, hshared, congrArg
    (fun a => (s.withContext { s.eng.toContext with lanes := a }).withShared (keccakP s.cfg m s.eng.lanes sh).2) hlanes⟩

theorem State.finalize_withShared (m : Mode) :
    ∃ sh', (s.finalize m).shared.SameTable sh' ∧ (s.withShared sh).finalize m = (s.finalize m).withShared sh' := by
  obtain ⟨hlanes, hshared⟩ := keccakP_sameTable s.cfg m (pad s.eng.toContext) h
  exact ⟨_, hshared, congrArg
    (fun a => (s.withContext { s.eng.toContext with lanes := a, sealed := true }).withShared
      (keccakP s.cfg m (pad s.eng.toContext) sh).2) hlanes⟩

theorem State.absorb_withShared (m : Mode) (b : Byte) :
    ∃ sh', (s.absorb m b).shared.SameTable sh' ∧ (s.withShared sh).absorb m b = (s.absorb m b).withShared sh' := by
  obtain ⟨hcontext, hshared⟩ := absorbByte_sameTable s.cfg m b s.eng.toContext h
  exact ⟨_, hshared, congrArg
    (fun c => (s.withContext c).withShared (absorbByte (keccakP s.cfg m) b s.eng.toContext sh).2) hcontext⟩

end

/-- The results go on to states that differ in the counters only, the response included in what they share. -/
def SameButCounters (r r' : Result) : Prop :=
  ∃ (t : State) (sh : Shared), t.shared.SameTable sh ∧ r = .next t ∧ r' = .next (t.withShared sh)

/-- States that differ in the counters only, as the obligation writes them. -/
theorem State.withShared_eq_withCounters {s : State} {sh : Shared} (h : s.shared.SameTable sh) :
    s.withShared sh = s.withCounters sh.cntCalls sh.cntHits sh.cntMisses := by
  obtain ⟨htbl, hpages⟩ := h
  obtain ⟨tbl, pages, calls, hits, misses⟩ := sh
  obtain rfl : tbl = s.shared.tbl := htbl
  obtain rfl : pages = s.shared.tblPages := hpages
  rfl

theorem SameButCounters.answer {s : State} {sh : Shared} (h : s.shared.SameTable sh) (r : Response) :
    SameButCounters (answer s r) (answer (s.withShared sh) r) := ⟨s.respond r, sh, h, rfl, rfl⟩

section
variable {s : State} {sh : Shared} (h : s.shared.SameTable sh)
include h

theorem SameButCounters.raiseFault (f : FaultCode) : SameButCounters (raiseFault f s) (raiseFault f (s.withShared sh)) :=
  .answer (s := s.withFault f.code) h _

theorem SameButCounters.unlessFaulted {r r' : Result} (hr : SameButCounters r r') :
    SameButCounters (unlessFaulted s r) (unlessFaulted (s.withShared sh) r') := by
  by_cases hf : s.eng.fault = 0
  · rwa [unlessFaulted_live hf, unlessFaulted_live (s := s.withShared sh) hf]
  · rw [unlessFaulted_faulted hf, unlessFaulted_faulted (s := s.withShared sh) hf]
    exact .answer h _

theorem SameButCounters.unlessSealed {r r' : Result} (hr : SameButCounters r r') :
    SameButCounters (unlessSealed s r) (unlessSealed (s.withShared sh) r') := by
  refine .unlessFaulted h ?_
  show SameButCounters _ (if s.eng.sealed then _ else _)
  split
  · exact .raiseFault h _
  · exact hr

theorem illegalCommand_sameButCounters : SameButCounters (illegalCommand s) (illegalCommand (s.withShared sh)) :=
  .unlessFaulted h (.raiseFault h _)

theorem execAbsb_sameButCounters (m : Mode) (b : Byte) :
    SameButCounters (unlessSealed s (answer (s.absorb m b) .ok))
      (unlessSealed (s.withShared sh) (answer ((s.withShared sh).absorb m b) .ok)) := by
  obtain ⟨sh', hsh', e⟩ := s.absorb_withShared h m b
  rw [e]
  exact .unlessSealed h (.answer hsh' _)

theorem execFin_sameButCounters (m : Mode) :
    SameButCounters (unlessSealed s (answer (s.finalize m) (.digest (digest (s.finalize m).eng.lanes))))
      (unlessSealed (s.withShared sh)
        (answer ((s.withShared sh).finalize m) (.digest (digest ((s.withShared sh).finalize m).eng.lanes)))) := by
  obtain ⟨sh', hsh', e⟩ := s.finalize_withShared h m
  rw [e]
  exact .unlessSealed h (.answer hsh' _)

theorem execPerm_sameButCounters (m : Mode) :
    SameButCounters (unlessSealed s (answer (s.permute m) .ok))
      (unlessSealed (s.withShared sh) (answer ((s.withShared sh).permute m) .ok)) := by
  obtain ⟨sh', hsh', e⟩ := s.permute_withShared h m
  rw [e]
  exact .unlessSealed h (.answer hsh' _)

theorem execRdlane_sameButCounters (l : BitVec 5) :
    SameButCounters (execRdlane l s) (execRdlane l (s.withShared sh)) := by
  unfold execRdlane
  split
  · exact .answer h _
  · exact illegalCommand_sameButCounters h

theorem execWrlane_sameButCounters (l : BitVec 5) :
    SameButCounters (execWrlane l s) (execWrlane l (s.withShared sh)) := by
  unfold execWrlane
  split
  · exact .unlessSealed h (.answer (s := s.writeLane l.toNat s.lowOperand) h _)
  · exact illegalCommand_sameButCounters h

theorem execResolve_sameButCounters : SameButCounters (execResolve s) (execResolve (s.withShared sh)) := by
  obtain ⟨hvalue, hshared⟩ := resolveIndex_sameTable h s.lowOperand
  refine .unlessFaulted h ?_
  show SameButCounters _ (answer ((s.withShared (resolveIndex s.lowOperand s.shared).2).withShared
    (resolveIndex s.lowOperand sh).2) (.data64 (resolveIndex s.lowOperand sh).1))
  rw [hvalue]
  exact .answer hshared _

theorem execTblinit_sameButCounters : SameButCounters (execTblinit s) (execTblinit (s.withShared sh)) := by
  refine .unlessFaulted h ?_
  show SameButCounters _ (if s.ioOk then _ else _)
  split
  · exact ⟨s.tableBuilt.respond .ok, (s.withShared sh).tableBuilt.shared, ⟨rfl, rfl⟩, rfl, rfl⟩
  · exact .raiseFault (s := s.tableLost) (sh := (s.withShared sh).tableLost.shared) ⟨rfl, rfl⟩ _

theorem execTblrd_sameButCounters : SameButCounters (execTblrd s) (execTblrd (s.withShared sh)) := by
  refine .unlessFaulted h ?_
  show SameButCounters _ (if sh.covers s.lowOperand.toNat then answer (s.withShared sh) (.data64 (sh.tblRead s.lowOperand))
    else raiseFault .tblRange (s.withShared sh))
  rw [h.covers, h.tblRead]
  split
  · exact .answer h _
  · exact .raiseFault h _

theorem exec_sameButCounters (i : Instr) (hi : ∀ n, i ≠ .rdcsr n) :
    SameButCounters (exec i s) (exec i (s.withShared sh)) := by
  cases i with
  | init => exact .unlessFaulted h (.answer (s := s.withContext Context.reset) h _)
  | absbP b => exact execAbsb_sameButCounters h .plain b
  | absbX b => exact execAbsb_sameButCounters h .extended b
  | finP => exact execFin_sameButCounters h .plain
  | finX => exact execFin_sameButCounters h .extended
  | permP => exact execPerm_sameButCounters h .plain
  | permX => exact execPerm_sameButCounters h .extended
  | rdlane l => exact execRdlane_sameButCounters h l
  | wrlane l => exact execWrlane_sameButCounters h l
  | reduce => exact .unlessFaulted h (.answer h _)
  | resolve => exact execResolve_sameButCounters h
  | tblinit => exact execTblinit_sameButCounters h
  | rdcsr n => exact absurd rfl (hi n)
  | tblrd => exact execTblrd_sameButCounters h

end

/-- Settles O56: setting the counters leaves the table and the page count, which are all a command but RDCSR reads. -/
theorem countersAreOnlyDiagnostics : Obligations.CountersAreOnlyDiagnostics := by
  intro i s calls hits misses hi
  obtain ⟨t, sh', hsame, hnext, hnext'⟩ :=
    exec_sameButCounters (s := s) (sh := (s.withCounters calls hits misses).shared) ⟨rfl, rfl⟩ i hi
  rw [State.withShared_eq_withCounters hsame] at hnext'
  exact ⟨t, sh'.cntCalls, sh'.cntHits, sh'.cntMisses, hnext, hnext'⟩

end Sys2Proof.Machine
end

section
/-! PROOF. The step on a command of an engine that exists, and the values that reset and INIT leave. -/

namespace Sys2Proof.Machine

/-- A command addressed to an engine that the system has is accepted as Safety.lean presents it. -/
theorem State.accept_presented {s : State} {c : Command} {e : Engine} (he : s.engines[c.engine]? = some e)
    (rest : List PortEvent) : s.accept c rest = some (s.presented c rest e) := State.accept_eq he rest

theorem step_command {s : State} {c : Command} {rest : List PortEvent} (hport : s.port = .command c :: rest) :
    step s = executeCommand c rest s := by
  rw [step, takeEvent, hport]

theorem executeCommand_presented {s : State} {c : Command} {e : Engine} (he : s.engines[c.engine]? = some e)
    (rest : List PortEvent) : executeCommand c rest s = execWord c.word (s.presented c rest e) := by
  rw [executeCommand, State.accept_presented he]

theorem execWord_ok {w : CmdWord} {i : Instr} (hi : decode w = .ok i) (s : State) : execWord w s = exec i s := by
  rw [execWord, hi]

/-- Settles O8: the port gives the command, accepting it presents it, and its word decodes. -/
theorem stepExecutesTheDecodedCommand : Obligations.StepExecutesTheDecodedCommand := by
  intro s c rest e i hport he hi
  refine ⟨?_, State.accept_engines (State.accept_presented he rest)⟩
  calc step s
    _ = executeCommand c rest s := step_command hport
    _ = execWord c.word (s.presented c rest e) := executeCommand_presented he rest
    _ = exec i (s.presented c rest e) := execWord_ok hi _

/-- Settles O13: every engine of State.reset is `Engine.reset`, whose lanes are `zeroLanes`. -/
theorem resetValues : Obligations.ResetValues := by
  refine ⟨fun e he => ?_, rfl, rfl, rfl, rfl⟩
  rw [Engine.mem_reset_engines he]
  exact ⟨fun l _ => lane_zeroLanes l, rfl, rfl, rfl, rfl, rfl⟩

theorem exec_init_live {s : State} (h : s.live) :
    exec .init s = .next ((s.withContext Context.reset).respond .ok) := unlessFaulted_live h _

/-- On an engine without fault the reset context makes the reset engine. -/
theorem State.withContext_reset_eng {s : State} (h : s.live) : (s.withContext Context.reset).eng = Engine.reset :=
  congrArg (Engine.mk Context.reset) h

/-- Settles O17: INIT puts the reset context in place, and FAULT is 0 already. -/
theorem initEqualsReset : Obligations.InitEqualsReset :=
  ⟨fun _ h => ⟨_, exec_init_live h, State.withContext_reset_eng h, rfl⟩, exec_init_live rfl⟩

end Sys2Proof.Machine
end

section
/-! PROOF. The table over a step (20_memory.md R65): every operation but building, losing and resetting the table keeps it, and
those belong to TBLINIT and to the reset event. -/

namespace Sys2Proof.Machine

theorem Shared.SameTable.refl (sh : Shared) : sh.SameTable sh := ⟨rfl, rfl⟩

/-- Counting resolutions keeps the table. -/
theorem Shared.CountedTo.sameTable {p : Nat → Prop} {sh sh' : Shared} (hc : sh.CountedTo p sh') : sh.SameTable sh' := by
  obtain ⟨h, m, -, rfl⟩ := hc
  exact ⟨Shared.counted_tbl sh h m, Shared.counted_tblPages sh h m⟩

/-- The result goes on only to states whose table and page count are those of `sh`. -/
def KeepsTable (sh : Shared) : Result → Prop := Ensures fun t => sh.SameTable t.shared

theorem exec_keepsTable {i : Instr} (hi : i ≠ .tblinit) (s : State) : KeepsTable s.shared (exec i s) := by
  have kept : s.shared.SameTable s.shared := .refl _
  refine exec_elim i s ?init ?absb ?fin ?perm ?rdlane ?wrlane ?reduce ?resolve ?tblinit ?tblLost ?tblrd ?rdcsr ?raised ?refused
  case absb => intro m b _ _ _; exact ensures_answer (s.absorb_countedTo m b).sameTable
  case fin => intro m _ _ _; exact ensures_answer (s.finalize_countedTo m).sameTable
  case perm => intro m _ _ _; exact ensures_answer (s.permute_countedTo m).sameTable
  case resolve => intros; exact ensures_answer (resolveIndex_countedTo _ _).sameTable
  case init | rdlane | wrlane | reduce | tblrd | rdcsr => intros; exact ensures_answer kept
  case tblinit | tblLost => exact fun _ h => absurd h hi
  case raised => intros; exact ensures_raiseFault kept
  case refused => intros; exact ensures_refuseFaulted kept

theorem illegalCommand_keepsTable (s : State) : KeepsTable s.shared (illegalCommand s) :=
  unlessFaulted_elim (fun _ => ensures_raiseFault (.refl _)) fun _ => ensures_refuseFaulted (.refl _)

theorem execWord_keepsTable {w : CmdWord} (hw : decode w ≠ .ok .tblinit) (s : State) :
    KeepsTable s.shared (execWord w s) := by
  unfold execWord
  split
  case h_1 i hi => exact exec_keepsTable (fun h => hw (h ▸ hi)) s
  case h_2 => exact illegalCommand_keepsTable s

theorem executeCommand_keepsTable {c : Command} (hc : decode c.word ≠ .ok .tblinit) (rest : List PortEvent) (s : State) :
    KeepsTable s.shared (executeCommand c rest s) := by
  unfold executeCommand
  split
  case h_1 t ha =>
    obtain ⟨-, hshared, -⟩ := State.accept_rest ha
    exact hshared ▸ execWord_keepsTable hc t
  case h_2 => rintro _ ⟨⟩

theorem step_keepsTable {s : State} (hreset : s.port.head? ≠ some .reset)
    (hport : ∀ (c : Command) (rest : List PortEvent), s.port = .command c :: rest → decode c.word ≠ .ok .tblinit) :
    KeepsTable s.shared (step s) := by
  unfold step takeEvent
  split
  case h_1 => rintro _ ⟨⟩; exact .refl _
  case h_2 rest hp => exact absurd (congrArg List.head? hp) hreset
  case h_3 c rest hp => exact executeCommand_keepsTable (hport c rest hp) rest s

/-- Settles O38: `step_keepsTable`, and a byte of the table is read from the table alone. -/
theorem tableIsImmutable : Obligations.TableIsImmutable := by
  intro s t hstep hreset hport
  obtain ⟨htbl, hpages⟩ := step_keepsTable hreset hport t hstep
  exact ⟨hpages, htbl, fun addr => by rw [htbl]⟩

end Sys2Proof.Machine
end

section
/-! PROOF. The words of the table that TBLINIT builds (41_table_and_resolver.md R116): those of the page's image where a usable one
was presented, the fallback hashes elsewhere. -/

namespace Sys2Proof.Machine

theorem usableImage_eq_some_iff {image : PageImage} {bytes : List Byte} :
    usableImage image = some bytes ↔ image = some bytes ∧ bytes.length = pageBytes := by
  cases image with
  | none => simp [usableImage]
  | some file =>
    simp only [usableImage, Option.ite_none_right_eq_some, Option.some.injEq]
    constructor
    · rintro ⟨hlen, rfl⟩; exact ⟨rfl, hlen⟩
    · rintro ⟨rfl, hlen⟩; exact ⟨hlen, rfl⟩

/-- The bytes that TBLINIT loads into page p: its image, if one of the right length was presented (R116, R119). -/
def loadedPage (images : List PageImage) (p : Nat) : Option (List Byte) := images[p]?.bind usableImage

theorem loadedPage_eq_some_iff {images : List PageImage} {p : Nat} {bytes : List Byte} :
    loadedPage images p = some bytes ↔ images[p]? = some (some bytes) ∧ bytes.length = pageBytes := by
  simp only [loadedPage, Option.bind_eq_some_iff, usableImage_eq_some_iff]
  constructor
  · rintro ⟨_, hp, rfl, hlen⟩; exact ⟨hp, hlen⟩
  · rintro ⟨hp, hlen⟩; exact ⟨_, hp, rfl, hlen⟩

section
variable {n p j : Nat} {images : List PageImage} (hp : p < n) (hj : j < pageWords)
include hp hj

/-- Byte k of word j of page p, by what is loaded into the page. -/
theorem buildTable_readByte {k : Nat} (hk : k < 8) :
    (buildTable n images).readByte (8 * (pageWords * p + j) + k) =
      ((loadedPage images p).map fun bytes => bytes.getD (8 * j + k) 0).getD
        (Memory.computed.readByte (8 * (pageWords * p + j) + k)) := by
  have hpage : (8 * (pageWords * p + j) + k) / pageBytes = p := by simp only [pageWords, pageBytes] at *; omega
  have hoffset : (8 * (pageWords * p + j) + k) % pageBytes = 8 * j + k := by simp only [pageWords, pageBytes] at *; omega
  rw [buildTable, Memory.readByte_loadPages Memory.computed_wf, hpage, hoffset, if_pos (Nat.zero_le p), Nat.sub_zero,
    List.getElem?_take_of_lt hp]
  show _ = Option.getD (Option.map _ (images[p]?.bind usableImage)) _
  cases images[p]?.bind usableImage <;> rfl

theorem buildTable_readWord_loaded {bytes : List Byte} (hpage : loadedPage images p = some bytes) :
    (buildTable n images).readWord (pageWords * p + j) = le8inv fun k => bytes.getD (8 * j + k) 0 := by
  rw [Memory.readWord_eq]
  refine le8inv_congr fun k hk => ?_
  rw [buildTable_readByte hp hj hk, hpage]
  rfl

theorem buildTable_readWord_computed (hpage : loadedPage images p = none) :
    (buildTable n images).readWord (pageWords * p + j) = fallbackHash (BitVec.ofNat 64 (pageWords * p + j)) := by
  calc (buildTable n images).readWord (pageWords * p + j)
    _ = le8inv fun k => Memory.computed.readByte (8 * (pageWords * p + j) + k) := by
      rw [Memory.readWord_eq]
      refine le8inv_congr fun k hk => ?_
      rw [buildTable_readByte hp hj hk, hpage]
      rfl
    _ = Memory.computed.readWord (pageWords * p + j) := (Memory.readWord_eq _ _).symm
    _ = fallbackHash (BitVec.ofNat 64 (pageWords * p + j)) := Memory.readWord_unlisted fun _ _ => rfl

end

/-- The images are trusted: every page that is loaded holds the fallback hashes of its indices (20_memory.md R69). -/
def TrustedImages (n : Nat) (images : List PageImage) : Prop :=
  ∀ (p j : Nat) (bytes : List Byte), p < n → j < pageWords → loadedPage images p = some bytes →
    (le8inv fun k => bytes.getD (8 * j + k) 0) = fallbackHash (BitVec.ofNat 64 (pageWords * p + j))

theorem buildTable_readWord_trusted {n : Nat} {images : List PageImage} (htrusted : TrustedImages n images) {i : Nat}
    (hi : i < pageWords * n) : (buildTable n images).readWord i = fallbackHash (BitVec.ofNat 64 i) := by
  have hp : i / pageWords < n := Nat.div_lt_of_lt_mul hi
  have hj : i % pageWords < pageWords := Nat.mod_lt i (by decide)
  rw [← Nat.div_add_mod i pageWords]
  cases hpage : loadedPage images (i / pageWords) with
  | none => exact buildTable_readWord_computed hp hj hpage
  | some bytes => rw [buildTable_readWord_loaded hp hj hpage, htrusted _ _ bytes hp hj hpage]

theorem State.tableBuilt_tableCorrect {s : State} (htrusted : TrustedImages s.cfg.pageCount s.images) :
    s.tableBuilt.shared.tableCorrect := by
  intro i hcovered
  have hi : i.toNat < pageWords * s.cfg.pageCount := by
    have := of_decide_eq_true hcovered
    rwa [State.tableBuilt_shared_tblPages, Config.toNat_pageCount] at this
  calc s.tableBuilt.shared.tblRead i
    _ = (buildTable s.cfg.pageCount s.images).readWord i.toNat := rfl
    _ = fallbackHash (BitVec.ofNat 64 i.toNat) := buildTable_readWord_trusted htrusted hi
    _ = fallbackHash i := by rw [BitVec.ofNat_toNat, BitVec.setWidth_eq]

theorem exec_tblinit_built {s : State} (hlive : s.live) (hio : s.ioOk = true) :
    exec .tblinit s = .next (s.tableBuilt.respond .ok) :=
  (unlessFaulted_live hlive _).trans (if_pos hio)

/-- Settles O37: TBLINIT leaves the built table, and each of its words is the fallback hash, loaded or computed. -/
theorem tableCorrectAfterTrustedImages : Obligations.TableCorrectAfterTrustedImages := by
  intro s hlive hio himages
  refine ⟨_, exec_tblinit_built hlive hio, State.tableBuilt_tableCorrect fun p j bytes hp hj hpage => ?_⟩
  obtain ⟨himage, hlen⟩ := loadedPage_eq_some_iff.1 hpage
  exact himages p j bytes hp hj himage hlen

end Sys2Proof.Machine
end

section
/-! PROOF. The serialized view of the lanes byte by byte (20_memory.md R54), and where a message byte lies in it (R55). -/

namespace Sys2Proof.Machine

/-- Byte k of the serialized view: byte `k mod 8` of lane `k div 8` (R54). -/
def viewByte (a : Lanes) (k : Nat) : Byte := byteOf (lane a (k / 8)) (k % 8)

theorem getElem?_flatMap_le8 (words : List Word) (k : Nat) :
    (words.flatMap le8)[k]? = words[k / 8]?.map fun v => byteOf v (k % 8) := by
  induction words generalizing k with
  | nil => rfl
  | cons v rest ih =>
    rw [List.flatMap_cons]
    by_cases hk : k < 8
    · rw [List.getElem?_append_left hk, getElem?_le8 v hk, Nat.div_eq_of_lt hk, Nat.mod_eq_of_lt hk]
      rfl
    · obtain ⟨r, rfl⟩ := Nat.exists_eq_add_of_le' (Nat.le_of_not_lt hk)
      rw [List.getElem?_append_right (Nat.le_add_left 8 r), length_le8, Nat.add_sub_cancel, ih,
        Nat.add_div_right r (by decide), Nat.add_mod_right, List.getElem?_cons_succ]

theorem length_serialize (a : Lanes) : (serialize a).length = 200 := by
  simp [serialize, List.length_flatMap, length_le8]

theorem getElem?_serialize (a : Lanes) {k : Nat} (hk : k < 200) : (serialize a)[k]? = some (viewByte a k) := by
  have hlane : k / 8 < 25 := by omega
  rw [serialize, getElem?_flatMap_le8, viewByte, lane_eq_getElem a _ hlane, Vector.getElem?_toList,
    Vector.getElem?_eq_getElem hlane]
  rfl

/-- Settles O44: the digest's bytes are the view's by `digestByte_digest`. -/
theorem serializedViewAndDigest : Obligations.SerializedViewAndDigest := by
  intro a
  refine ⟨length_serialize a, fun k hk => getElem?_serialize a hk, fun k hk => ?_⟩
  calc (serialize a)[k]?
    _ = some (viewByte a k) := getElem?_serialize a (by omega)
    _ = some (digestByte (digest a) k) := congrArg some (digestByte_digest a hk).symm

/-! The bytes of a message in the view -/

theorem byteOf_xor (v w : Word) (k : Nat) : byteOf (v ^^^ w) k = byteOf v k ^^^ byteOf w k := BitVec.extractLsb'_xor

theorem xorLane_zero (a : Lanes) (i : Nat) : xorLane a i 0 = a := by
  refine lanes_ext fun j hj => ?_
  by_cases hji : j = i
  · subst hji
    rw [lane_xorLane a j j 0 hj, if_pos rfl]
    exact BitVec.xor_zero
  · exact lane_xorLane_ne a i j 0 hji

theorem viewByte_xorLane (a : Lanes) {i : Nat} (hi : i < 25) (v : Word) (k : Nat) :
    viewByte (xorLane a i v) k = viewByte a k ^^^ (if k / 8 = i then byteOf v (k % 8) else 0) := by
  rw [viewByte, viewByte, lane_xorLane a i _ v hi]
  split
  next hk => rw [hk, byteOf_xor]
  next => exact BitVec.xor_zero.symm

/-- Above the pending bytes `SAVED` is zero, so the next byte is exclusive-ored in as well as or-ed. -/
theorem byteOf_accumulated {c : Context} (hsaved : c.saved >>> (8 * c.byteIdx.toNat) = 0) (b : Byte) {j : Nat} (hj : j < 8) :
    byteOf (c.accumulated b) j = byteOf c.saved j ^^^ (if j = c.byteIdx.toNat then b else 0) := by
  apply BitVec.eq_of_getLsbD_eq
  intro r hr
  have hbit : 8 * j + r < 64 := by omega
  rw [BitVec.getLsbD_xor, byteOf_getLsbD _ _ _ hr, byteOf_getLsbD _ _ _ hr, Context.accumulated, BitVec.getLsbD_or,
    BitVec.getLsbD_shiftLeft]
  obtain hlt | rfl | hgt := Nat.lt_trichotomy j c.byteIdx.toNat
  · have below : 8 * j + r < 8 * c.byteIdx.toNat := by omega
    simp [below, Nat.ne_of_lt hlt]
  · have saved_zero : c.saved.getLsbD (8 * c.byteIdx.toNat + r) = false := by
      rw [← BitVec.getLsbD_ushiftRight, hsaved]; exact BitVec.getLsbD_zero
    rw [saved_zero]
    have hr64 : r < 64 := by omega
    simp [hbit, zext64, hr64]
  · have above : b.getLsbD (8 * j + r - 8 * c.byteIdx.toNat) = false := BitVec.getLsbD_of_ge _ _ (by omega)
    simp [above, zext64, Nat.ne_of_gt hgt]

/-- The lanes with the pending bytes counted in (R55). -/
def Context.pending (c : Context) : Lanes := xorLane c.lanes c.cursor.toNat c.saved

theorem Context.viewByte_folded {c : Context} (h : c.wf) (b : Byte) (k : Nat) :
    viewByte (c.folded b) k = viewByte c.pending k ^^^ (if k = c.position then b else 0) := by
  obtain ⟨hcursor, hsaved⟩ := h
  have hbyte := c.byteIdx.isLt
  rw [Context.folded, Context.pending, viewByte_xorLane _ (by omega), viewByte_xorLane _ (by omega),
    byteOf_accumulated hsaved b (by omega), BitVec.xor_assoc, Context.position]
  congr 1
  by_cases hlane : k / 8 = c.cursor.toNat
  · have hplace : k % 8 = c.byteIdx.toNat ↔ k = 8 * c.cursor.toNat + c.byteIdx.toNat := by omega
    simp only [if_pos hlane, hplace]
  · have hplace : k ≠ 8 * c.cursor.toNat + c.byteIdx.toNat := by omega
    simp only [if_neg hlane, if_neg hplace]; rfl

section
variable {σ : Type} (perm : Perm σ) {c : Context} (b : Byte) (x : σ)

/-- Before the last byte of a block the permutation is not called: the byte is counted in among the pending ones. -/
theorem absorbByte_within_block (hpos : c.position ≠ 71) :
    (absorbByte perm b c x).1.pending = c.folded b ∧ (absorbByte perm b c x).2 = x := by
  obtain ⟨-, e⟩ | ⟨hi, -, e⟩ | ⟨hi, hc, -⟩ := absorbByte_cases perm b c x
  · rw [e]; exact ⟨rfl, rfl⟩
  · rw [e]; exact ⟨xorLane_zero _ _, rfl⟩
  · exact absurd (by simp only [Context.position, rate] at hc ⊢; omega) hpos

/-- The last byte of a block calls the permutation on the lanes with the byte counted in. -/
theorem absorbByte_last_of_block (hpos : c.position = 71) :
    (absorbByte perm b c x).1.lanes = (perm (c.folded b) x).1 ∧ (absorbByte perm b c x).2 = (perm (c.folded b) x).2 := by
  have hbyte := c.byteIdx.isLt
  simp only [Context.position] at hpos
  rw [absorbByte_block perm b c x (by omega) (by simp only [rate]; omega)]
  exact ⟨rfl, rfl⟩

theorem absorbBytes_concat (bs : List Byte) :
    absorbBytes perm (bs ++ [b]) c x =
      absorbByte perm b (absorbBytes perm bs c x).1 (absorbBytes perm bs c x).2 := absorbBytes_append perm c x bs [b]

theorem absorbBytes_wf (h : c.wf) (msg : List Byte) : (absorbBytes perm msg c x).1.wf := by
  induction msg generalizing c x with
  | nil => exact h
  | cons b bs ih => exact ih _ (absorbByte_wf perm b x h)

end

theorem getD_concat (bs : List Byte) (b : Byte) (k : Nat) :
    (bs ++ [b]).getD k 0 = bs.getD k 0 ^^^ (if k = bs.length then b else 0) := by
  obtain hlt | rfl | hgt := Nat.lt_trichotomy k bs.length
  · rw [if_neg hlt.ne, List.getD_append _ _ _ _ hlt]; exact BitVec.xor_zero.symm
  · simp
  · rw [if_neg hgt.ne', List.getD_eq_default _ _ hgt.le, List.getD_eq_default _ _ (by simpa using hgt)]; rfl

section
variable {σ : Type} (perm : Perm σ) {c : Context} (hwf : c.wf) (hstart : c.position = 0) (x : σ)
include hwf hstart

theorem absorbBytes_position_of_lt {msg : List Byte} (hlen : msg.length < 72) :
    (absorbBytes perm msg c x).1.position = msg.length := by
  rw [absorbBytes_position perm x msg hwf.1, hstart, Nat.zero_add, Nat.mod_eq_of_lt hlen]

/-- With the message so far in its places, the next byte of the block falls into its own. -/
theorem viewByte_folded_of_placed {bs : List Byte} (hlen : bs.length < 72) (b : Byte) {k : Nat} {v : Byte}
    (hplaced : viewByte (absorbBytes perm bs c x).1.pending k = v ^^^ bs.getD k 0) :
    viewByte ((absorbBytes perm bs c x).1.folded b) k = v ^^^ (bs ++ [b]).getD k 0 := by
  rw [Context.viewByte_folded (absorbBytes_wf perm x hwf bs), hplaced,
    absorbBytes_position_of_lt perm hwf hstart x hlen, getD_concat, BitVec.xor_assoc]

/-- Within a block every message byte is counted in at its place, and the permutation is not called. -/
theorem absorbBytes_within_block {msg : List Byte} (hlen : msg.length < 72) :
    (∀ k, viewByte (absorbBytes perm msg c x).1.pending k = viewByte c.pending k ^^^ msg.getD k 0) ∧
      (absorbBytes perm msg c x).2 = x := by
  induction msg using List.reverseRecOn with
  | nil => exact ⟨fun k => BitVec.xor_zero.symm, rfl⟩
  | append_singleton bs b ih =>
    rw [List.length_append, List.length_singleton] at hlen
    have hlt : bs.length < 72 := by omega
    obtain ⟨hplaced, hcarried⟩ := ih hlt
    have hpos := absorbBytes_position_of_lt perm hwf hstart x hlt
    obtain ⟨hpending, hx⟩ := absorbByte_within_block perm b _ (hpos.trans_ne (by omega))
    rw [absorbBytes_concat, hpending, hx]
    exact ⟨fun k => viewByte_folded_of_placed perm hwf hstart x hlt b (hplaced k), hcarried⟩

/-- A whole block calls the permutation once, on the lanes with every byte of the block in its place. -/
theorem absorbBytes_block {msg : List Byte} (hlen : msg.length = 72) :
    ∃ a : Lanes, (absorbBytes perm msg c x).1.lanes = (perm a x).1 ∧ (absorbBytes perm msg c x).2 = (perm a x).2 ∧
      ∀ k, viewByte a k = viewByte c.pending k ^^^ msg.getD k 0 := by
  obtain rfl | ⟨bs, b, rfl⟩ := List.eq_nil_or_concat' msg
  · contradiction
  rw [List.length_append, List.length_singleton] at hlen
  have hlt : bs.length < 72 := by omega
  obtain ⟨hplaced, hcarried⟩ := absorbBytes_within_block perm hwf hstart x hlt
  have hpos := absorbBytes_position_of_lt perm hwf hstart x hlt
  obtain ⟨hlanes, hx⟩ := absorbByte_last_of_block perm b x (hpos.trans (by omega))
  rw [absorbBytes_concat, hcarried]
  exact ⟨_, hlanes, hx, fun k => viewByte_folded_of_placed perm hwf hstart x hlt b (hplaced k)⟩

end

/-- Settles O46: at the start of a block nothing is pending, so the bytes counted in are the message's alone. -/
theorem messageBytesLieInTheirPlaces : Obligations.MessageBytesLieInTheirPlaces := by
  intro σ perm c msg x hsaved hbyte hcursor
  have hwf : c.wf := by simp [Context.wf, hsaved, hcursor]
  have hstart : c.position = 0 := by simp [Context.position, hbyte, hcursor]
  have hpending : c.pending = c.lanes := by rw [Context.pending, hsaved, xorLane_zero]
  refine ⟨fun hlen k _ => ?_, fun hlen => ?_⟩
  · obtain ⟨hplaced, -⟩ := absorbBytes_within_block perm hwf hstart x hlen
    exact hpending ▸ hplaced k
  · obtain ⟨a, hlanes, hx, hplaced⟩ := absorbBytes_block perm hwf hstart x hlen
    exact ⟨a, hlanes, hx, fun k _ => hpending ▸ hplaced k⟩

end Sys2Proof.Machine
end

section
/-! PROOF. The encoding of 30_encoding.md. A command word is its opcode byte (`OP`, `X` and `Z`) above `IMM8`; the decoder answers a
command exactly on the word whose four fields are the command's own, and that is the word the encoder writes. It refuses a word where
a check of its format does, which gives the six clauses of R85. -/

namespace Sys2Proof

/-! Words as bytes and fields (R80) -/

theorem append_eq_append_iff {n m : Nat} {x x' : BitVec n} {y y' : BitVec m} : x ++ y = x' ++ y' ↔ x = x' ∧ y = y' := by
  constructor
  · intro h
    have hx := congrArg (BitVec.extractLsb' m n) h
    have hy := congrArg (BitVec.extractLsb' 0 m) h
    simp only [BitVec.extractLsb'_append_eq_left, BitVec.extractLsb'_append_eq_right] at hx hy
    exact ⟨hx, hy⟩
  · rintro ⟨rfl, rfl⟩
    rfl

/-- Bits 15:8 of a command word: `OP`, `X` and `Z` (R80). -/
def opcodeByte (w : CmdWord) : Byte := w.extractLsb' 8 8

theorem opcodeByte_append_immField (w : CmdWord) : opcodeByte w ++ immField w = w := BitVec.extractLsb'_append_extractLsb'

theorem append_eq_word_iff {hi lo : Byte} {w : CmdWord} : hi ++ lo = w ↔ opcodeByte w = hi ∧ immField w = lo := by
  rw [← opcodeByte_append_immField w, append_eq_append_iff, opcodeByte_append_immField, eq_comm, eq_comm (a := lo)]

theorem opcodeByte_eq_fields (w : CmdWord) : opcodeByte w = opField w ++ BitVec.ofBool (xField w) ++ zField w := by
  have hx : BitVec.ofBool (xField w) = w.extractLsb' 11 1 := by
    rw [xField, BitVec.getLsbD_eq_extractLsb']
    generalize w.extractLsb' 11 1 = x
    revert x; decide
  have hopx : w.extractLsb' 12 4 ++ w.extractLsb' 11 1 = w.extractLsb' 11 5 :=
    BitVec.extractLsb'_append_extractLsb'_eq_extractLsb' rfl
  rw [hx, opField, zField, hopx]
  exact (BitVec.extractLsb'_append_extractLsb'_eq_extractLsb' (start₁ := 8) (len₁ := 3) (len₂ := 5) rfl).symm

theorem toNat_zero_append {m k : Nat} (v : BitVec k) : (0#m ++ v).toNat = v.toNat := by simp

/-- Formats L and C (R81): an immediate is an operand below zero bits exactly when its value is one the operand can have, and then
the operand is its low bits. -/
theorem zero_append_eq_iff {m k top : Nat} (htop : top < 2 ^ k) {imm : BitVec (m + k)} {v : BitVec k} :
    0#m ++ v = imm ∧ v.toNat ≤ top ↔ imm.toNat ≤ top ∧ imm.extractLsb' 0 k = v := by
  constructor
  · rintro ⟨rfl, hv⟩
    exact ⟨(toNat_zero_append v).trans_le hv, BitVec.extractLsb'_append_eq_right⟩
  · rintro ⟨himm, rfl⟩
    have hvalue : (imm.extractLsb' 0 k).toNat = imm.toNat := by
      simpa using Nat.mod_eq_of_lt (himm.trans_lt htop)
    exact ⟨BitVec.eq_of_toNat_eq ((toNat_zero_append _).trans hvalue), hvalue.trans_le himm⟩

/-! The fields of a command's own word (R80, R84) -/

/-- The `OP` of a command (R84). -/
def Instr.op : Instr → BitVec 4
  | .init => 0
  | .absbP _ | .absbX _ => 1
  | .finP | .finX => 2
  | .permP | .permX => 3
  | .rdlane _ => 4
  | .wrlane _ => 5
  | .reduce => 6
  | .resolve => 7
  | .tblinit => 8
  | .rdcsr _ => 9
  | .tblrd => 10

/-- The `X` of a command: whether its mode is Extended (R80). -/
def Instr.extended : Instr → Bool
  | .absbX _ | .finX | .permX => true
  | _ => false

/-- The `IMM8` of a command (R81). -/
def Instr.imm : Instr → Byte
  | .absbP b | .absbX b => b
  | .rdlane l | .wrlane l => 0#3 ++ l
  | .rdcsr n => 0#5 ++ n
  | _ => 0

/-- The opcode byte of a command: `OP`, `X`, and `Z = 000` (R80). -/
def Instr.opcode (i : Instr) : Byte := i.op ++ BitVec.ofBool i.extended ++ 0#3

theorem encode_eq (i : Instr) : encode i = i.opcode ++ i.imm := by
  cases i with
  | absbP b => exact congrArg (· ++ b) (by decide : 0x10#8 = (1#4 ++ BitVec.ofBool false ++ 0#3 : Byte))
  | absbX b => exact congrArg (· ++ b) (by decide : 0x18#8 = (1#4 ++ BitVec.ofBool true ++ 0#3 : Byte))
  | rdlane l => revert l; decide
  | wrlane l => revert l; decide
  | rdcsr n => revert n; decide
  | _ => rfl

theorem opcodeByte_eq_opcode_iff {w : CmdWord} {i : Instr} :
    opcodeByte w = i.opcode ↔ opField w = i.op ∧ xField w = i.extended ∧ zField w = 0 := by
  have ofBool_inj : ∀ x y : Bool, BitVec.ofBool x = BitVec.ofBool y ↔ x = y := by decide
  rw [opcodeByte_eq_fields, Instr.opcode, append_eq_append_iff, append_eq_append_iff, ofBool_inj, and_assoc]
  rfl

theorem encode_eq_iff {w : CmdWord} {i : Instr} : encode i = w ↔ opcodeByte w = i.opcode ∧ immField w = i.imm := by
  rw [encode_eq, append_eq_word_iff]

/-! What the checks of R81 let through -/

section
variable {w : CmdWord} {i : Instr}

/-- Format N and Q: neither a mode nor an immediate. -/
theorem withNothing_eq_ok_iff {c : Instr} :
    withoutMode w (withoutImmediate w (.ok c)) = .ok i ↔ c = i ∧ xField w = false ∧ immField w = 0 := by
  rw [withoutMode, withoutImmediate]
  grind

/-- Format M: a mode and no immediate. -/
theorem withoutImmediate_eq_ok_iff {c : Instr} : withoutImmediate w (.ok c) = .ok i ↔ c = i ∧ immField w = 0 := by
  rw [withoutImmediate]
  grind

theorem withoutMode_eq_ok_iff {d : Decoded} : withoutMode w d = .ok i ↔ xField w = false ∧ d = .ok i := by
  rw [withoutMode]
  grind

/-- The check of formats L and C: an operand of `k` bits, at most `top`, below zero bits. -/
theorem withOperand_eq_ok_iff {m k top : Nat} (htop : top < 2 ^ k) {imm : BitVec (m + k)} {f : BitVec k → Instr} {e : IllegalWord} :
    (if imm.toNat ≤ top then Except.ok (f (imm.extractLsb' 0 k)) else .error e) = .ok i ↔
      ∃ v, f v = i ∧ imm = 0#m ++ v ∧ v.toNat ≤ top := by
  simp only [eq_comm (a := imm), zero_append_eq_iff htop]
  split <;> simp [*]

theorem withLane_eq_ok_iff {f : BitVec 5 → Instr} :
    withLane w f = .ok i ↔ ∃ l, f l = i ∧ immField w = 0#3 ++ l ∧ laneExists l = true := by
  have hlow : w.extractLsb' 0 5 = (immField w).extractLsb' 0 5 := (BitVec.extractLsb'_extractLsb'_of_le (by decide)).symm
  simp only [withLane, laneExists, decide_eq_true_eq, hlow]
  exact withOperand_eq_ok_iff (m := 3) (by decide)

theorem withCsr_eq_ok_iff {f : BitVec 3 → Instr} :
    withCsr w f = .ok i ↔ ∃ n, f n = i ∧ immField w = 0#5 ++ n ∧ csrExists n = true := by
  have hlow : w.extractLsb' 0 3 = (immField w).extractLsb' 0 3 := (BitVec.extractLsb'_extractLsb'_of_le (by decide)).symm
  simp only [withCsr, csrExists, decide_eq_true_eq, hlow]
  exact withOperand_eq_ok_iff (m := 5) (by decide)

/-- Each operation answers only commands of its own row, with the fields of the word. -/
theorem decodeOp_ok {n : Nat} (h : decodeOp w n = .ok i) :
    n = i.op.toNat ∧ xField w = i.extended ∧ immField w = i.imm ∧ i.wf = true := by
  unfold decodeOp at h
  split at h
  case h_1 | h_7 | h_8 | h_9 | h_11 =>
    obtain ⟨rfl, hx, himm⟩ := withNothing_eq_ok_iff.mp h
    exact ⟨rfl, hx, himm, rfl⟩
  case h_2 =>
    cases hx : xField w <;> rw [hx] at h <;> cases h <;> exact ⟨rfl, rfl, rfl, rfl⟩
  case h_3 | h_4 =>
    obtain ⟨rfl, himm⟩ := withoutImmediate_eq_ok_iff.mp h
    cases xField w <;> exact ⟨rfl, rfl, himm, rfl⟩
  case h_5 | h_6 =>
    obtain ⟨hx, h⟩ := withoutMode_eq_ok_iff.mp h
    obtain ⟨l, rfl, himm, hl⟩ := withLane_eq_ok_iff.mp h
    exact ⟨rfl, hx, himm, hl⟩
  case h_10 =>
    obtain ⟨hx, h⟩ := withoutMode_eq_ok_iff.mp h
    obtain ⟨n, rfl, himm, hn⟩ := withCsr_eq_ok_iff.mp h
    exact ⟨rfl, hx, himm, hn⟩
  case h_12 => cases h

/-- The operation of a command answers the command on a word with its fields. -/
theorem decodeOp_of_fields (hx : xField w = i.extended) (himm : immField w = i.imm) (hwf : i.wf = true) :
    decodeOp w i.op.toNat = .ok i := by
  cases i with
  | init | reduce | resolve | tblinit | tblrd => exact withNothing_eq_ok_iff.mpr ⟨rfl, hx, himm⟩
  | absbP b | absbX b =>
    show Except.ok (if xField w then Instr.absbX (immField w) else .absbP (immField w)) = _
    rw [hx, himm]
    rfl
  | finP | finX | permP | permX => exact withoutImmediate_eq_ok_iff.mpr ⟨by rw [hx]; rfl, himm⟩
  | rdlane l | wrlane l => exact withoutMode_eq_ok_iff.mpr ⟨hx, withLane_eq_ok_iff.mpr ⟨l, rfl, himm, hwf⟩⟩
  | rdcsr n => exact withoutMode_eq_ok_iff.mpr ⟨hx, withCsr_eq_ok_iff.mpr ⟨n, rfl, himm, hwf⟩⟩

/-- Decoder and encoder are inverse: a word decodes to a command exactly when it is the command's word and the command is well
formed (R84, R86). -/
theorem decode_eq_ok_iff : decode w = .ok i ↔ encode i = w ∧ i.wf = true := by
  rw [encode_eq_iff, opcodeByte_eq_opcode_iff, decode]
  constructor
  · intro h
    split at h
    next hz =>
      obtain ⟨hop, hx, himm, hwf⟩ := decodeOp_ok h
      exact ⟨⟨⟨BitVec.eq_of_toNat_eq hop, hx, hz⟩, himm⟩, hwf⟩
    next => cases h
  · rintro ⟨⟨⟨hop, hx, hz⟩, himm⟩, hwf⟩
    rw [if_pos hz, hop]
    exact decodeOp_of_fields hx himm hwf

end

/-- Settles O1: one direction of `decode_eq_ok_iff`. -/
theorem decodeEncodeRoundTrip : Obligations.DecodeEncodeRoundTrip := fun _ hwf => decode_eq_ok_iff.mpr ⟨rfl, hwf⟩

/-- Settles O2: the other direction of `decode_eq_ok_iff`. -/
theorem encodeDecodeRoundTrip : Obligations.EncodeDecodeRoundTrip := fun _ _ => decode_eq_ok_iff.mp

/-- Settles O6: each word is the one the encoder writes for its command, and the lane and the CSR exist. -/
theorem wordsDecodeToTheirCommands : Obligations.WordsDecodeToTheirCommands := by
  refine ⟨?_, ?_, ?_, ?_, ?_, ?_, ?_, ?_, ?_, ?_, ?_, ?_, ?_, ?_⟩ <;> exact decode_eq_ok_iff.mpr ⟨rfl, rfl⟩

/-! The refusals (R85) -/

/-- Decoding answers no command but a clause of R85. -/
def Refused (d : Decoded) : Prop := ∃ e, d = .error e

section
variable {w : CmdWord}

@[simp] theorem refused_error (e : IllegalWord) : Refused (.error e) := ⟨e, rfl⟩

@[simp] theorem not_refused_ok (i : Instr) : ¬ Refused (.ok i) := nofun

@[simp] theorem refused_withoutMode {d : Decoded} : Refused (withoutMode w d) ↔ xField w = true ∨ Refused d := by
  unfold withoutMode
  split <;> simp [*]

@[simp] theorem refused_withoutImmediate {d : Decoded} : Refused (withoutImmediate w d) ↔ immField w ≠ 0 ∨ Refused d := by
  unfold withoutImmediate
  split <;> simp_all

@[simp] theorem refused_withLane {f : BitVec 5 → Instr} : Refused (withLane w f) ↔ 24 < (immField w).toNat := by
  unfold withLane
  split <;> simp <;> omega

@[simp] theorem refused_withCsr {f : BitVec 3 → Instr} : Refused (withCsr w f) ↔ 6 < (immField w).toNat := by
  unfold withCsr
  split <;> simp <;> omega

/-- The clauses (a) and (c) to (f) of R85, for a word whose operation is number `op`. -/
theorem refused_decodeOp {op : Nat} : Refused (decodeOp w op) ↔
    11 ≤ op ∨ (xField w = true ∧ op ≠ 1 ∧ op ≠ 2 ∧ op ≠ 3) ∨ (immField w ≠ 0 ∧ op ∈ [0, 2, 3, 6, 7, 8, 10]) ∨
      ((op = 4 ∨ op = 5) ∧ 24 < (immField w).toNat) ∨ (op = 9 ∧ 6 < (immField w).toNat) := by
  unfold decodeOp
  split
  case h_12 =>
    have hop : 11 ≤ op := by
      by_contra hlt
      interval_cases op <;> contradiction
    simp [hop]
  all_goals simp

theorem refused_decode : Refused (decode w) ↔ zField w ≠ 0 ∨ Refused (decodeOp w (opField w).toNat) := by
  unfold decode
  split <;> simp_all

theorem xField_eq_true_iff : xField w = true ↔ (w.extractLsb' 11 1).toNat = 1 := by
  rw [xField, BitVec.getLsbD_eq_extractLsb', beq_iff_eq, ← BitVec.toNat_inj]
  rfl

end

/-- R85: the illegal words are those of the clauses (a) to (f). -/
theorem decode_error_iff (w : CmdWord) :
    let op := (w.extractLsb' 12 4).toNat
    let x := (w.extractLsb' 11 1).toNat
    let z := (w.extractLsb' 8 3).toNat
    let imm := (w.extractLsb' 0 8).toNat
    (∃ e, decode w = .error e) ↔
      11 ≤ op ∨ z ≠ 0 ∨ (x = 1 ∧ op ≠ 1 ∧ op ≠ 2 ∧ op ≠ 3) ∨ (imm ≠ 0 ∧ op ∈ [0, 2, 3, 6, 7, 8, 10]) ∨
        ((op = 4 ∨ op = 5) ∧ 24 < imm) ∨ (op = 9 ∧ 6 < imm) := by
  have hz : zField w ≠ 0 ↔ (w.extractLsb' 8 3).toNat ≠ 0 := BitVec.toNat_inj.not.symm
  have himm : immField w ≠ 0 ↔ (w.extractLsb' 0 8).toNat ≠ 0 := BitVec.toNat_inj.not.symm
  refine refused_decode.trans ?_
  rw [refused_decodeOp, xField_eq_true_iff, hz, himm, opField, immField]
  exact or_left_comm

end Sys2Proof
end

section
/-! PROOF. The opcode map of 30_encoding.md R84. A row selects the words with the row's opcode byte whose `IMM8` is at most the row's
`top`, and those are the words of the row's well-formed commands. -/

namespace Sys2Proof

/-! The selection rule of a row -/

section
variable {n : Nat} {x m : BitVec n}

theorem and_not_eq_self (h : x &&& m = 0#n) : x &&& ~~~m = x := by
  calc x &&& ~~~m
    _ = (x &&& ~~~m) ||| (x &&& m) := by rw [h, BitVec.or_zero]
    _ = x := by rw [← BitVec.and_or_distrib_left]; simp

theorem and_allOnes_shiftLeft_eq_zero {k : Nat} (h : x.toNat < 2 ^ k) : x &&& (BitVec.allOnes n <<< k) = 0#n := by
  ext i hi
  by_cases hik : i < k
  · simp [hik]
  · have hbit : x.getLsbD i = false :=
      Nat.testBit_lt_two_pow (h.trans_le (Nat.pow_le_pow_right (by decide) (Nat.le_of_not_lt hik)))
    simp [← BitVec.getLsbD_eq_getElem, hbit]

end

theorem OpcodeRow.selects_eq_true_iff {r : OpcodeRow} {w : CmdWord} :
    r.selects w = true ↔ w &&& r.mask = r.pattern ∧ (w &&& ~~~r.mask).toNat ≤ r.top := by
  simp [OpcodeRow.selects]

/-- A pattern of R84 has no `IMM8`; a mask has the whole opcode byte and the bits of `IMM8` above the row's operand. -/
theorem opcodeRows_shape : ∀ r ∈ opcodeRows, r.pattern = opcodeByte r.pattern ++ 0#8 ∧
    r.mask = BitVec.allOnes 8 ++ immField r.mask ∧ ∃ k < 9, immField r.mask = BitVec.allOnes 8 <<< k ∧ r.top < 2 ^ k := by
  decide

theorem opcodeRows_opcodes_distinct : opcodeRows.Pairwise fun r q => opcodeByte r.pattern ≠ opcodeByte q.pattern := by
  decide

section
variable {r : OpcodeRow} (hr : r ∈ opcodeRows) {w : CmdWord}
include hr

theorem and_mask_eq_pattern_iff :
    w &&& r.mask = r.pattern ↔ opcodeByte w = opcodeByte r.pattern ∧ immField w &&& immField r.mask = 0#8 := by
  obtain ⟨hpattern, hmask, -⟩ := opcodeRows_shape r hr
  calc w &&& r.mask = r.pattern
    _ ↔ (opcodeByte w ++ immField w) &&& (BitVec.allOnes 8 ++ immField r.mask) = opcodeByte r.pattern ++ 0#8 := by
        rw [opcodeByte_append_immField, ← hmask, ← hpattern]
    _ ↔ _ := by rw [BitVec.and_append, append_eq_append_iff, BitVec.and_allOnes]

theorem toNat_and_not_mask : (w &&& ~~~r.mask).toNat = (immField w &&& ~~~immField r.mask).toNat := by
  obtain ⟨-, hmask, -⟩ := opcodeRows_shape r hr
  calc (w &&& ~~~r.mask).toNat
    _ = ((opcodeByte w ++ immField w) &&& ~~~(BitVec.allOnes 8 ++ immField r.mask)).toNat := by
        rw [opcodeByte_append_immField, ← hmask]
    _ = (0#8 ++ (immField w &&& ~~~immField r.mask)).toNat := by
        rw [BitVec.not_append, BitVec.and_append, BitVec.not_allOnes, BitVec.and_zero]
    _ = _ := toNat_zero_append _

/-- What the selection rule comes to: the row's opcode byte, and an immediate that the row's condition admits. -/
theorem selects_iff : r.selects w = true ↔ opcodeByte w = opcodeByte r.pattern ∧ (immField w).toNat ≤ r.top := by
  rw [OpcodeRow.selects_eq_true_iff, and_mask_eq_pattern_iff hr, toNat_and_not_mask hr, and_assoc]
  refine and_congr_right fun _ => ⟨fun ⟨hzero, htop⟩ => ?_, fun htop => ?_⟩
  · rwa [and_not_eq_self hzero] at htop
  · obtain ⟨-, -, k, -, hmask, hk⟩ := opcodeRows_shape r hr
    have hzero : immField w &&& immField r.mask = 0#8 := hmask ▸ and_allOnes_shiftLeft_eq_zero (htop.trans_lt hk)
    exact ⟨hzero, (and_not_eq_self hzero).symm ▸ htop⟩

end

/-! Rows and commands -/

/-- The row of a command (R84). -/
def Instr.row : Instr → OpcodeRow
  | .init => opcodeRows[0]
  | .absbP _ => opcodeRows[1]
  | .absbX _ => opcodeRows[2]
  | .finP => opcodeRows[3]
  | .finX => opcodeRows[4]
  | .permP => opcodeRows[5]
  | .permX => opcodeRows[6]
  | .rdlane _ => opcodeRows[7]
  | .wrlane _ => opcodeRows[8]
  | .reduce => opcodeRows[9]
  | .resolve => opcodeRows[10]
  | .tblinit => opcodeRows[11]
  | .rdcsr _ => opcodeRows[12]
  | .tblrd => opcodeRows[13]

theorem Instr.row_mem (i : Instr) : i.row ∈ opcodeRows := by
  cases i <;> exact List.getElem_mem _

theorem Instr.row_mnemonic (i : Instr) : i.row.mnemonic = i.mnemonic := by
  cases i <;> rfl

theorem Instr.opcodeByte_row_pattern (i : Instr) : opcodeByte i.row.pattern = i.opcode :=
  opcodeByte_eq_opcode_iff.mpr (by cases i <;> simp only [Instr.row, Instr.op, Instr.extended] <;> decide)

/-- A command is well formed when its immediate meets the condition of its row. -/
theorem Instr.wf_iff_imm_le_top (i : Instr) : i.wf = true ↔ i.imm.toNat ≤ i.row.top := by
  cases i with
  | rdlane l | wrlane l => exact decide_eq_true_iff.trans (by rw [Instr.imm, toNat_zero_append]; rfl)
  | rdcsr n => exact decide_eq_true_iff.trans (by rw [Instr.imm, toNat_zero_append]; rfl)
  | absbP b | absbX b => exact iff_of_true rfl (Nat.le_of_lt_succ b.isLt)
  | _ => exact iff_of_true rfl le_rfl

/-- Every immediate that a row's condition admits is that of a command of the row. -/
theorem exists_command : ∀ r ∈ opcodeRows, ∀ imm : Byte, imm.toNat ≤ r.top → ∃ i : Instr, i.row = r ∧ i.imm = imm := by
  have zero {imm : Byte} (h : imm.toNat ≤ 0) : 0 = imm := BitVec.eq_of_toNat_eq (Nat.le_zero.mp h).symm
  have lane {imm : Byte} (h : imm.toNat ≤ 24) : 0#3 ++ imm.extractLsb' 0 5 = imm :=
    (zero_append_eq_iff (m := 3) (k := 5) (by decide)).mpr ⟨h, rfl⟩ |>.1
  have csr {imm : Byte} (h : imm.toNat ≤ 6) : 0#5 ++ imm.extractLsb' 0 3 = imm :=
    (zero_append_eq_iff (m := 5) (k := 3) (by decide)).mpr ⟨h, rfl⟩ |>.1
  simp only [opcodeRows, List.forall_mem_cons]
  exact ⟨fun _ h => ⟨.init, rfl, zero h⟩,
    fun b _ => ⟨.absbP b, rfl, rfl⟩,
    fun b _ => ⟨.absbX b, rfl, rfl⟩,
    fun _ h => ⟨.finP, rfl, zero h⟩,
    fun _ h => ⟨.finX, rfl, zero h⟩,
    fun _ h => ⟨.permP, rfl, zero h⟩,
    fun _ h => ⟨.permX, rfl, zero h⟩,
    fun _ h => ⟨.rdlane _, rfl, lane h⟩,
    fun _ h => ⟨.wrlane _, rfl, lane h⟩,
    fun _ h => ⟨.reduce, rfl, zero h⟩,
    fun _ h => ⟨.resolve, rfl, zero h⟩,
    fun _ h => ⟨.tblinit, rfl, zero h⟩,
    fun _ h => ⟨.rdcsr _, rfl, csr h⟩,
    fun _ h => ⟨.tblrd, rfl, zero h⟩,
    nofun⟩

/-- A word decodes to a command exactly when the command's row selects it and it carries the command's immediate. -/
theorem decode_eq_ok_iff_row_selects {w : CmdWord} {i : Instr} :
    decode w = .ok i ↔ i.row.selects w = true ∧ immField w = i.imm := by
  rw [decode_eq_ok_iff, encode_eq_iff, selects_iff i.row_mem, i.opcodeByte_row_pattern, i.wf_iff_imm_le_top]
  constructor
  · rintro ⟨⟨hop, himm⟩, hwf⟩
    exact ⟨⟨hop, himm ▸ hwf⟩, himm⟩
  · rintro ⟨⟨hop, htop⟩, himm⟩
    exact ⟨⟨hop, himm⟩, himm ▸ htop⟩

theorem decode_of_selects {r : OpcodeRow} (hr : r ∈ opcodeRows) {w : CmdWord} (h : r.selects w = true) :
    ∃ i, decode w = .ok i ∧ i.row = r := by
  obtain ⟨-, htop⟩ := (selects_iff hr).mp h
  obtain ⟨i, rfl, himm⟩ := exists_command r hr _ htop
  exact ⟨i, decode_eq_ok_iff_row_selects.mpr ⟨h, himm.symm⟩, rfl⟩

/-- The legal words are those that some row selects. -/
theorem exists_decode_iff {w : CmdWord} : (∃ i, decode w = .ok i) ↔ ∃ r ∈ opcodeRows, r.selects w = true := by
  constructor
  · rintro ⟨i, hi⟩
    exact ⟨i.row, i.row_mem, (decode_eq_ok_iff_row_selects.mp hi).1⟩
  · rintro ⟨r, hr, hsel⟩
    obtain ⟨i, hi, -⟩ := decode_of_selects hr hsel
    exact ⟨i, hi⟩

/-- Settles O3: a row selects exactly the words of its commands, and no two rows have one opcode byte. -/
theorem opcodeMapSelectsCommand : Obligations.OpcodeMapSelectsCommand := by
  simp only [Obligations.OpcodeMapSelectsCommand, ← OpcodeRow.selects_eq_true_iff]
  refine ⟨fun w i hi => ?_, fun w r hr hmask htop => ?_, ?_, rfl, fun w hnone => ?_⟩
  · exact ⟨i.row, i.row_mem, i.row_mnemonic, (decode_eq_ok_iff_row_selects.mp hi).1⟩
  · obtain ⟨i, hi, rfl⟩ := decode_of_selects hr (OpcodeRow.selects_eq_true_iff.mpr ⟨hmask, htop⟩)
    exact ⟨i, hi, i.row_mnemonic.symm⟩
  · refine opcodeRows_opcodes_distinct.imp_of_mem fun hr hq hne w ⟨hwr, hwq⟩ => hne ?_
    obtain ⟨hr, -⟩ := (and_mask_eq_pattern_iff hr).mp hwr
    obtain ⟨hq, -⟩ := (and_mask_eq_pattern_iff hq).mp hwq
    exact hr.symm.trans hq
  · cases hd : decode w with
    | error e => exact ⟨e, rfl⟩
    | ok i =>
      obtain ⟨r, hr, hsel⟩ := exists_decode_iff.mp ⟨i, hd⟩
      exact absurd hsel (hnone r hr)

end Sys2Proof
end

section
/-! PROOF. What follows from the rows of R84: the number of legal words, the effect of an illegal one (R85), and that every command
completes with a response (R83). -/

namespace Sys2Proof

/-! The legal words, counted -/

/-- The words a row of R84 selects, in order. -/
def OpcodeRow.words (r : OpcodeRow) : List CmdWord :=
  (List.range (r.top + 1)).map fun k => opcodeByte r.pattern ++ BitVec.ofNat 8 k

section
variable {r : OpcodeRow} (hr : r ∈ opcodeRows)
include hr

theorem OpcodeRow.top_lt : r.top < 2 ^ 8 := by
  revert r; decide

theorem mem_words_iff {w : CmdWord} : w ∈ r.words ↔ r.selects w = true := by
  have htop := OpcodeRow.top_lt hr
  simp only [selects_iff hr, OpcodeRow.words, List.mem_map, List.mem_range, append_eq_word_iff]
  constructor
  · rintro ⟨k, hk, hop, himm⟩
    rw [himm, BitVec.toNat_ofNat]
    exact ⟨hop, (Nat.mod_le _ _).trans (Nat.le_of_lt_succ hk)⟩
  · rintro ⟨hop, himm⟩
    exact ⟨_, Nat.lt_succ_of_le himm, hop, by simp⟩

theorem nodup_words : r.words.Nodup := by
  have htop := OpcodeRow.top_lt hr
  refine List.Nodup.map_on (fun j hj k hk hjk => ?_) List.nodup_range
  obtain ⟨-, h⟩ := append_eq_append_iff.mp hjk
  have hmod := congrArg BitVec.toNat h
  rw [List.mem_range] at hj hk
  simp only [BitVec.toNat_ofNat] at hmod
  omega

end

/-- The legal words, row by row. -/
def legalWords : List CmdWord := opcodeRows.flatMap OpcodeRow.words

theorem mem_legalWords_iff {w : CmdWord} : w ∈ legalWords ↔ ∃ i, decode w = .ok i := by
  rw [exists_decode_iff, legalWords, List.mem_flatMap]
  exact exists_congr fun r => and_congr_right fun hr => mem_words_iff hr

theorem length_legalWords : legalWords.length = 578 := by
  simp [legalWords, OpcodeRow.words, opcodeRows]

theorem nodup_legalWords : legalWords.Nodup := by
  refine List.nodup_flatMap.mpr ⟨fun r hr => nodup_words hr, ?_⟩
  refine opcodeRows_opcodes_distinct.imp_of_mem fun hr hq hne w hwr hwq => hne ?_
  obtain ⟨hr, -⟩ := (selects_iff hr).mp ((mem_words_iff hr).mp hwr)
  obtain ⟨hq, -⟩ := (selects_iff hq).mp ((mem_words_iff hq).mp hwq)
  exact hr.symm.trans hq

/-- Settles O5: the encoder computes the legal examples, and the decoder refuses each illegal one by its clause. -/
theorem encodingExamples : Obligations.EncodingExamples := by
  refine ⟨rfl, rfl, rfl, rfl, rfl, rfl, rfl, rfl, rfl, rfl, rfl, rfl, rfl, rfl, rfl, rfl, rfl, ?_⟩
  simp only [List.forall_mem_cons]
  exact ⟨⟨.laneAbove24, rfl⟩, ⟨.csrAbove6, rfl⟩, ⟨.modeOnModeless, rfl⟩, ⟨.immediateNotZero, rfl⟩, ⟨.zNotZero, rfl⟩,
    ⟨.unassignedOp, rfl⟩, ⟨.zNotZero, rfl⟩, nofun⟩

end Sys2Proof

namespace Sys2Proof.Machine

/-! Executing an illegal command -/

theorem illegalCommand_live {s : State} (hlive : s.live) : illegalCommand s =
    .next { s with eng := { s.eng with fault := 1 }, resp := some (.fault 1) } :=
  unlessFaulted_live hlive _

theorem execWord_error {w : CmdWord} {e : IllegalWord} (he : decode w = .error e) (s : State) :
    execWord w s = illegalCommand s := by
  rw [execWord, he]

/-- Settles O4: the clauses are the decoder's refusals, an illegal word is an illegal command, and `legalWords` lists the others. -/
theorem illegalWordsAreTheSixClauses : Obligations.IllegalWordsAreTheSixClauses :=
  ⟨decode_error_iff, fun _ _ s he hlive => (execWord_error he s).trans (illegalCommand_live hlive),
    legalWords, length_legalWords, nodup_legalWords, fun _ => mem_legalWords_iff⟩

/-- Settles O27: a lane above 24 does not exist, so both commands are the illegal command. -/
theorem laneAboveTwentyFourIsIllegal : Obligations.LaneAboveTwentyFourIsIllegal := by
  intro s l hl hlive
  have hlane : ¬ laneExists l = true := by rw [laneExists_iff]; omega
  rw [← illegalCommand_live hlive]
  exact ⟨if_neg hlane, if_neg hlane⟩

/-! Completion -/

/-- The command goes on to a state, with a response on the port (R83). -/
def Completes (r : Result) : Prop := ∃ t, r = .next t ∧ t.resp ≠ none

theorem completes_answer (s : State) (r : Response) : Completes (answer s r) := ⟨s.respond r, rfl, nofun⟩

theorem completes_raiseFault (f : FaultCode) (s : State) : Completes (raiseFault f s) := completes_answer _ _

theorem completes_refuseFaulted (s : State) : Completes (refuseFaulted s) := completes_answer _ _

/-- Settles O54: every result that `exec_elim` lists is an answer, a fault raised or a refusal. -/
theorem everyCommandCompletes : Obligations.EveryCommandCompletes := by
  intro i s
  refine exec_elim (P := Completes) i s ?init ?absb ?fin ?perm ?rdlane ?wrlane ?reduce ?resolve ?tblinit ?tblLost ?tblrd ?rdcsr
    ?raised ?refused
  case tblLost | raised => intros; exact completes_raiseFault _ _
  case refused => intros; exact completes_refuseFaulted _
  all_goals intros; exact completes_answer _ _

end Sys2Proof.Machine
end

section
/-! PROOF. The reduction function of 40_reduction.md and the command REDUCE. The tier walk is a search of the tier table: the
first tier whose limit is above the selector reduces the value, and without one the value stays. -/

namespace Sys2Proof

theorem Config.smallSpace_le (cfg : Config) : cfg.smallSpace ≤ 2 ^ 20 := cfg.smallSpaceLessOne.isLt

theorem Config.smallSpace_pos (cfg : Config) : 0 < cfg.smallSpace := Nat.succ_pos _

end Sys2Proof

namespace Sys2Proof.Machine

/-- No modulus makes a remainder that a word cannot hold, so nothing is cut off. -/
@[simp] theorem wordMod_toNat (v : Word) (m : Nat) : (wordMod v m).toNat = v.toNat % m := by
  rw [wordMod, BitVec.toNat_ofNat, Nat.mod_eq_of_lt ((Nat.mod_le v.toNat m).trans_lt v.isLt)]

theorem tierWalk_eq_find? (ts : List Tier) (sel val : Word) :
    tierWalk ts sel val = (ts.find? fun t => sel.toNat < t.limit).elim val fun t => wordMod val t.space := by
  induction ts with
  | nil => rfl
  | cons t ts ih =>
    rw [tierWalk, List.find?_cons]
    by_cases h : sel.toNat < t.limit
    · simp [h]
    · simp [h, ih]

theorem tierWalk_of_getElem? {ts : List Tier} {sel : Word} {k : Nat} {t : Tier} (hk : ts[k]? = some t)
    (ht : sel.toNat < t.limit) (hbefore : ∀ (j : Nat) (u : Tier), j < k → ts[j]? = some u → u.limit ≤ sel.toNat)
    (val : Word) : tierWalk ts sel val = wordMod val t.space := by
  obtain ⟨hlt, hget⟩ := List.getElem?_eq_some_iff.mp hk
  have hfind : (ts.find? fun t => sel.toNat < t.limit) = some t := by
    refine List.find?_eq_some_iff_getElem.mpr ⟨decide_eq_true ht, k, hlt, hget, fun j hj => ?_⟩
    have hu := hbefore j _ hj (List.getElem?_eq_getElem (hj.trans hlt))
    simpa using hu
  rw [tierWalk_eq_find?, hfind, Option.elim_some]

theorem tierWalk_of_forall_le {ts : List Tier} {sel : Word} (h : ∀ t ∈ ts, t.limit ≤ sel.toNat) (val : Word) :
    tierWalk ts sel val = val := by
  have hfind : (ts.find? fun t => sel.toNat < t.limit) = none := by simpa using h
  rw [tierWalk_eq_find?, hfind, Option.elim_none]

theorem reduceWord_fast {sel : Word} (h : 2 ^ 63 ≤ sel.toNat) (cfg : Config) (val : Word) :
    reduceWord cfg sel val = wordMod val cfg.smallSpace := if_pos h

theorem reduceWord_walk {sel : Word} (h : sel.toNat < 2 ^ 63) (cfg : Config) (val : Word) :
    reduceWord cfg sel val = tierWalk cfg.tiers sel val := if_neg h.not_ge

/-- Whatever the selector, the value is left alone or reduced by some modulus. -/
theorem reduceWord_cases (cfg : Config) (sel val : Word) :
    reduceWord cfg sel val = val ∨ ∃ m, reduceWord cfg sel val = wordMod val m := by
  rcases le_or_gt (2 ^ 63) sel.toNat with h | h
  · exact .inr ⟨_, reduceWord_fast h cfg val⟩
  · rw [reduceWord_walk h, tierWalk_eq_find?]
    cases cfg.tiers.find? fun t => sel.toNat < t.limit with
    | none => exact .inl rfl
    | some t => exact .inr ⟨t.space, rfl⟩

theorem reduceWord_le (cfg : Config) (sel val : Word) : (reduceWord cfg sel val).toNat ≤ val.toNat := by
  rcases reduceWord_cases cfg sel val with h | ⟨m, h⟩ <;> rw [h]
  rw [wordMod_toNat]
  exact Nat.mod_le _ _

/-- Settles O28: the upper half takes the fast path, the lower half the tier walk, which finds the first tier or none. -/
theorem reduceFastPathTiersAndNoTier : Obligations.ReduceFastPathTiersAndNoTier := by
  intro cfg sel val
  refine ⟨fun hfast => ?_, fun hwalk k t hk ht hbefore => ?_, fun hwalk hnone => ?_⟩
  · rw [reduceWord_fast hfast, wordMod_toNat]
    exact ⟨rfl, (Nat.mod_lt _ cfg.smallSpace_pos).trans_le cfg.smallSpace_le⟩
  · rw [reduceWord_walk hwalk, tierWalk_of_getElem? hk ht hbefore, wordMod_toNat]
  · rw [reduceWord_walk hwalk, tierWalk_of_forall_le hnone]

/-- Settles O29: a remainder is at most the value, and only 0 is at most 0. -/
theorem reduceIsBounded : Obligations.ReduceIsBounded := fun cfg sel val =>
  ⟨reduceWord_le cfg sel val, BitVec.eq_of_toNat_eq (Nat.le_zero.mp (reduceWord_le cfg sel 0))⟩

/-- Settles O30: check (1) of R197 is the only one before the response, and the halves of the bus are R81's. -/
theorem reduceCommand : Obligations.ReduceCommand := fun _ =>
  ⟨fun hlive => unlessFaulted_live hlive _, fun hfault => unlessFaulted_faulted hfault _⟩

end Sys2Proof.Machine
end

section
/-! PROOF. The fallback hash of 41_table_and_resolver.md: its fold is over the 64-bit slices of the digest (R110 to R112), and its
256 bytes are absorbed a copy of the index at a time, one permutation for nine of them (R123). -/

namespace Sys2Proof.Machine

/-! The fold by slices -/

/-- The bytes of a digest are taken from a word of it as from the whole. -/
theorem byteOf_extractLsb' (d : DigestWord) (j : Nat) {k : Nat} (hk : k < 8) :
    byteOf (d.extractLsb' (64 * j) 64) k = digestByte d (8 * j + k) := by
  apply BitVec.eq_of_getLsbD_eq
  intro r hr
  have hbit : 8 * k + r < 64 := by omega
  have hplace : 64 * j + (8 * k + r) = 8 * (8 * j + k) + r := by omega
  simp only [byteOf_getLsbD _ _ _ hr, digestByte, BitVec.getLsbD_extractLsb', hbit, hr, hplace, decide_true, Bool.true_and]

theorem digestWord_eq_extractLsb' (d : DigestWord) (j : Nat) : digestWord d j = d.extractLsb' (64 * j) 64 :=
  word_ext_bytes fun _ hk => (byteOf_le8inv _ hk).trans (byteOf_extractLsb' d j hk).symm

theorem forceNonZero_ne_zero (v : Word) : forceNonZero v ≠ 0 := by
  unfold forceNonZero
  split
  · decide
  · assumption

theorem fallbackHash_ne_zero (i : Word) : fallbackHash i ≠ 0 := forceNonZero_ne_zero _

/-- Settles O31: the words that are folded are the slices of the digest. -/
theorem fallbackHashIsForcedNonZero : Obligations.FallbackHashIsForcedNonZero := by
  intro i
  refine ⟨?_, fallbackHash_ne_zero i⟩
  simp only [← digestWord_eq_extractLsb']
  rfl

/-! Absorbing copies of a word -/

/-- The context of an unsealed engine at a word boundary: nothing pending, the next word for lane `n`. -/
def Context.atWord (a : Lanes) (n : BitVec 4) : Context where
  lanes := a
  saved := 0
  byteIdx := 0
  cursor := n
  sealed := false

theorem Context.atWord_reset : Context.reset = .atWord zeroLanes 0 := rfl

/-- The lanes with `v` exclusive-ored into the first `n` of them. -/
def xorCopies (v : Word) (n : Nat) (a : Lanes) : Lanes := (List.range n).foldl (fun a l => xorLane a l v) a

theorem xorCopies_succ (v : Word) (n : Nat) (a : Lanes) : xorCopies v (n + 1) a = xorLane (xorCopies v n a) n v := by
  simp [xorCopies, List.range_succ]

/-- The message of `n` copies of a word. -/
def copiesOf (v : Word) (n : Nat) : List Byte := (List.replicate n (le8 v)).flatten

theorem copiesOf_add (v : Word) (m n : Nat) : copiesOf v (m + n) = copiesOf v m ++ copiesOf v n := by
  simp [copiesOf, ← List.replicate_append_replicate]

theorem copiesOf_one (v : Word) : copiesOf v 1 = le8 v := by simp [copiesOf]

section
variable {σ : Type} (perm : Perm σ) (v : Word) (a : Lanes) (x : σ)

theorem absorbBytes_le8_within_block {n : BitVec 4} (hn : n.toNat ≠ 8) :
    absorbBytes perm (le8 v) (.atWord a n) x = (.atWord (xorLane a n.toNat v) (n + 1), x) :=
  (absorbBytes_le8 perm _ x v rfl rfl).trans (if_neg fun h => hn (Nat.succ.inj h))

theorem absorbBytes_le8_last_of_block :
    absorbBytes perm (le8 v) (.atWord a 8) x = (.atWord (perm (xorLane a 8 v) x).1 0, (perm (xorLane a 8 v) x).2) :=
  (absorbBytes_le8 perm _ x v rfl rfl).trans (if_pos rfl)

/-- Up to eight copies are exclusive-ored into the lanes, and the permutation is not called. -/
theorem absorbBytes_copies {n : Nat} (hn : n ≤ 8) :
    absorbBytes perm (copiesOf v n) (.atWord a 0) x = (.atWord (xorCopies v n a) (BitVec.ofNat 4 n), x) := by
  induction n with
  | zero => rfl
  | succ n ih =>
    have hcursor : (BitVec.ofNat 4 n).toNat = n := Nat.mod_eq_of_lt (by omega)
    rw [copiesOf_add, copiesOf_one, absorbBytes_append, ih (by omega),
      absorbBytes_le8_within_block perm v _ x (by omega), hcursor, xorCopies_succ, BitVec.ofNat_add]
    rfl

/-- Nine copies are a block: the ninth calls the permutation. -/
theorem absorbBytes_block_of_copies :
    absorbBytes perm (copiesOf v 9) (.atWord a 0) x =
      (.atWord (perm (xorCopies v 9 a) x).1 0, (perm (xorCopies v 9 a) x).2) := by
  rw [copiesOf_add v 8 1, copiesOf_one, absorbBytes_append, absorbBytes_copies perm v a x (le_refl 8), xorCopies_succ]
  exact absorbBytes_le8_last_of_block perm v _ x

/-- At a word boundary the suffix is the low byte of the next lane (43_sponge_context.md R166). -/
theorem pad_atWord (n : BitVec 4) :
    pad (.atWord a n) = xorLane (xorLane a n.toNat 0x06) 8 0x8000000000000000 := by
  rw [pad_eq]
  simp [Context.atWord]

end

/-! The four permutations -/

/-- The lanes after a Plain block of nine copies of a word (R123). -/
def plainBlock (v : Word) (a : Lanes) : Lanes := keccakPlain (xorCopies v 9 a)

theorem absorbBytes_plainBlock (v : Word) (a : Lanes) (msg : List Byte) :
    absorbBytes plainPerm (copiesOf v 9 ++ msg) (.atWord a 0) () =
      absorbBytes plainPerm msg (.atWord (plainBlock v a) 0) () := by
  rw [absorbBytes_append, absorbBytes_block_of_copies]
  rfl

/-- The lanes of the last permutation of a fallback hash: five copies after three blocks, and the padding (R123). -/
def fallbackLastBlock (i : Word) : Lanes :=
  xorLane (xorLane (xorCopies i 5 (plainBlock i (plainBlock i (plainBlock i zeroLanes)))) 5 0x06) 8 0x8000000000000000

theorem fallbackBuffer_eq (i : Word) :
    fallbackBuffer i = copiesOf i 9 ++ (copiesOf i 9 ++ (copiesOf i 9 ++ copiesOf i 5)) := by
  rw [← copiesOf_add, ← copiesOf_add, ← copiesOf_add]
  rfl

theorem absorbBytes_fallbackBuffer (i : Word) :
    absorbBytes plainPerm (fallbackBuffer i) Context.reset () =
      (.atWord (xorCopies i 5 (plainBlock i (plainBlock i (plainBlock i zeroLanes)))) 5, ()) := by
  rw [fallbackBuffer_eq, Context.atWord_reset, absorbBytes_plainBlock, absorbBytes_plainBlock, absorbBytes_plainBlock]
  exact absorbBytes_copies plainPerm i _ () (by decide)

theorem plainDigest_fallbackBuffer (i : Word) :
    plainDigest (fallbackBuffer i) = digest (keccakPlain (fallbackLastBlock i)) := by
  rw [plainDigest, digestOf, absorbBytes_fallbackBuffer]
  exact congrArg (fun a => digest (keccakPlain a)) (pad_atWord _ 5)

/-- Settles O32: the digest is of the lanes that the last of the four permutations leaves. -/
theorem fallbackHashIsFourPermutations : Obligations.FallbackHashIsFourPermutations := by
  intro i copies block last a v
  rw [fallbackHash, plainDigest_fallbackBuffer, fold_digest]
  rfl

end Sys2Proof.Machine
end

section
/-! PROOF. The resolver and the commands RESOLVE, TBLRD and TBLINIT (41_table_and_resolver.md R114 to R122). -/

namespace Sys2Proof.Machine

/-! The resolver -/

theorem Shared.covers_eq_true_iff {sh : Shared} {i : Nat} : sh.covers i = true ↔ i < 2 ^ 20 * sh.tblPages.toNat :=
  decide_eq_true_iff

theorem Shared.covers_eq_false_iff {sh : Shared} {i : Nat} : sh.covers i = false ↔ 2 ^ 20 * sh.tblPages.toNat ≤ i :=
  decide_eq_false_iff_not.trans Nat.not_lt

theorem resolveIndex_covered {i : Word} {sh : Shared} (h : sh.covers i.toNat = true) :
    resolveIndex i sh = (sh.tblRead i, sh.countHit) := if_pos h

theorem resolveIndex_uncovered {i : Word} {sh : Shared} (h : sh.covers i.toNat = false) :
    resolveIndex i sh = (fallbackHash i, sh.countMiss) := if_neg (ne_true_of_eq_false h)

theorem resolveIndex_tableCorrect {sh : Shared} (htable : sh.tableCorrect) (i : Word) :
    (resolveIndex i sh).1 = fallbackHash i := by
  cases h : sh.covers i.toNat with
  | true => rw [resolveIndex_covered h]; exact htable i h
  | false => rw [resolveIndex_uncovered h]

/-- Settles O34: a hit is the table word, a miss the fallback hash, and setting the counters leaves the table. -/
theorem resolveUnderTableCorrect : Obligations.ResolveUnderTableCorrect := by
  intro sh i
  refine ⟨fun htable => ?_, fun hcovered => ?_, fun calls hits misses => ?_⟩
  · rw [resolveIndex_tableCorrect htable]
    exact ⟨rfl, fallbackHash_ne_zero i⟩
  · rw [resolveIndex_covered (Shared.covers_eq_true_iff.2 hcovered)]
    rfl
  · have hsame : sh.SameTable { sh with cntCalls := calls, cntHits := hits, cntMisses := misses } := ⟨rfl, rfl⟩
    obtain ⟨hvalue, -⟩ := resolveIndex_sameTable hsame i
    exact hvalue

/-! The commands -/

theorem exec_resolve_live {s : State} (hlive : s.live) :
    exec .resolve s = answer (s.withShared (resolveIndex s.lowOperand s.shared).2)
      (.data64 (resolveIndex s.lowOperand s.shared).1) := unlessFaulted_live hlive _

/-- Settles O33: RESOLVE answers what the resolver answers. -/
theorem resolveCommand : Obligations.ResolveCommand := by
  intro s
  refine ⟨fun hlive hcovered => ?_, fun hlive huncovered => ?_, fun hfault => unlessFaulted_faulted hfault _⟩
  · rw [exec_resolve_live hlive, resolveIndex_covered (i := s.lowOperand) (Shared.covers_eq_true_iff.2 hcovered)]
    rfl
  · rw [exec_resolve_live hlive, resolveIndex_uncovered (i := s.lowOperand) (Shared.covers_eq_false_iff.2 huncovered)]
    rfl

theorem exec_tblrd_covered {s : State} (hlive : s.live) (h : s.shared.covers s.lowOperand.toNat = true) :
    exec .tblrd s = answer s (.data64 (s.shared.tblRead s.lowOperand)) :=
  (unlessFaulted_live hlive _).trans (if_pos h)

theorem exec_tblrd_uncovered {s : State} (hlive : s.live) (h : s.shared.covers s.lowOperand.toNat = false) :
    exec .tblrd s = raiseFault .tblRange s :=
  (unlessFaulted_live hlive _).trans (if_neg (ne_true_of_eq_false h))

/-- Settles O35: the covered range is tested before the read. -/
theorem readTableCommand : Obligations.ReadTableCommand := fun _ =>
  ⟨fun hlive hcovered => exec_tblrd_covered hlive (Shared.covers_eq_true_iff.2 hcovered),
    fun hlive huncovered => exec_tblrd_uncovered hlive (Shared.covers_eq_false_iff.2 huncovered),
    fun hfault => unlessFaulted_faulted hfault _⟩

theorem exec_tblinit_lost {s : State} (hlive : s.live) (hio : s.ioOk = false) :
    exec .tblinit s = raiseFault .tblIo s.tableLost :=
  (unlessFaulted_live hlive _).trans (if_neg (ne_true_of_eq_false hio))

theorem loadedPage_eq_none_iff {images : List PageImage} {p : Nat} :
    loadedPage images p = none ↔ ∀ bytes : List Byte, images[p]? = some (some bytes) → bytes.length ≠ pageBytes := by
  simp only [Option.eq_none_iff_forall_ne_some, ne_eq, loadedPage_eq_some_iff, not_and]

/-- Settles O36: TBLINIT leaves the built table, page by page loaded or computed, or loses the table and raises TBL_IO. -/
theorem buildTableCommand : Obligations.BuildTableCommand := by
  intro s
  refine ⟨fun hlive hio => ?built, fun hlive hio => ?lost, fun hfault => unlessFaulted_faulted hfault _⟩
  case built =>
    refine ⟨buildTable s.cfg.pageCount s.images, exec_tblinit_built hlive hio, Config.toNat_pageCount s.cfg, fun p j hp hj => ?_⟩
    exact ⟨fun bytes himage hlen => buildTable_readWord_loaded hp hj (loadedPage_eq_some_iff.2 ⟨himage, hlen⟩),
      fun hunusable => buildTable_readWord_computed hp hj (loadedPage_eq_none_iff.2 hunusable)⟩
  case lost => exact ⟨s.tableLost.shared.tbl, exec_tblinit_lost hlive hio⟩

end Sys2Proof.Machine
end

section
/-! PROOF. The five step mappings of 42_permutation.md, lane by lane (R131 to R136). -/

namespace Sys2Proof.Machine

/-! Theta, Pi and Chi -/

/-- `ROL64` of 00_scope.md R9 is the rotation of bit vectors. -/
theorem rol64_eq_rotateLeft (a : Word) {n : Nat} (h : n < 64) : rol64 a n = a.rotateLeft n := by
  rw [rol64, BitVec.rotateLeft_def, Nat.mod_eq_of_lt h]
  split
  next hzero => simp [hzero, BitVec.ushiftRight_eq_zero]
  next => rfl

section
variable (a : Lanes) {x y : Nat} (hx : x < 5) (hy : y < 5)
include hx hy

theorem lane_theta : lane (theta a) (x + 5 * y) = lane a (x + 5 * y) ^^^
    (columnParity a ((x + 4) % 5) ^^^ (columnParity a ((x + 1) % 5)).rotateLeft 1) := by
  rw [← rol64_eq_rotateLeft _ (by decide)]
  exact laneAt_fromColumnsRows _ hx hy

theorem lane_rho : lane (rho a) (x + 5 * y) = rol64 (lane a (x + 5 * y)) (rhoOffset (x + 5 * y)) :=
  laneAt_fromColumnsRows _ hx hy

theorem lane_pi : lane (pi a) (x + 5 * y) = lane a ((x + 3 * y) % 5 + 5 * x) :=
  laneAt_fromColumnsRows _ hx hy

/-- The other description of R133: where Pi moves a lane to. -/
theorem lane_pi_moved : lane (pi a) (y + 5 * ((2 * x + 3 * y) % 5)) = lane a (x + 5 * y) := by
  have origin : (y + 3 * ((2 * x + 3 * y) % 5)) % 5 = x := by omega
  rw [lane_pi a hy (Nat.mod_lt _ (by decide)), origin]

theorem lane_chi : lane (chi a) (x + 5 * y) =
    lane a (x + 5 * y) ^^^ (~~~ lane a ((x + 1) % 5 + 5 * y) &&& lane a ((x + 2) % 5 + 5 * y)) :=
  laneAt_fromColumnsRows _ hx hy

end

/-- Settles O39: each mapping is written by columns and rows, and Pi's move is inverse to its reading. -/
theorem stepMappingsByLane : Obligations.StepMappingsByLane := fun a _ _ hx hy =>
  ⟨lane_theta a hx hy, lane_pi a hx hy, lane_pi_moved a hx hy, lane_chi a hx hy⟩

/-! Rho -/

/-- A move of the walk of R132. -/
def rhoWalkStep (q : Nat × Nat) : Nat × Nat := (q.2, (2 * q.1 + 3 * q.2) % 5)

/-- The column and row that the walk of R132 meets after `t` moves from (1, 0). -/
def rhoWalk (t : Nat) : Nat × Nat := rhoWalkStep^[t] (1, 0)

theorem rhoWalk_succ (t : Nat) : rhoWalk (t + 1) = rhoWalkStep (rhoWalk t) := Function.iterate_succ_apply' ..

theorem rhoWalk_lt (t : Nat) : (rhoWalk t).1 < 5 ∧ (rhoWalk t).2 < 5 := by
  induction t with
  | zero => decide
  | succ t ih =>
    rw [rhoWalk_succ]
    exact ⟨ih.2, Nat.mod_lt _ (by decide)⟩

/-- The table of R132 holds the offsets of the walk. -/
theorem rhoOffset_rhoWalk : ∀ t < 24,
    rhoOffset ((rhoWalk t).1 + 5 * (rhoWalk t).2) = ((t + 1) * (t + 2) / 2) % 64 := by decide

theorem rhoWalk_meets : ∀ i < 25, 1 ≤ i → ∃ t < 24, (rhoWalk t).1 + 5 * (rhoWalk t).2 = i := by decide

theorem lane_rho_zero (a : Lanes) : lane (rho a) 0 = lane a 0 := lane_rho a (x := 0) (y := 0) (by decide) (by decide)

theorem lane_rho_rhoWalk (a : Lanes) {t : Nat} (ht : t < 24) :
    lane (rho a) ((rhoWalk t).1 + 5 * (rhoWalk t).2) =
      (lane a ((rhoWalk t).1 + 5 * (rhoWalk t).2)).rotateLeft (((t + 1) * (t + 2) / 2) % 64) := by
  obtain ⟨hx, hy⟩ := rhoWalk_lt t
  rw [lane_rho a hx hy, rhoOffset_rhoWalk t ht, rol64_eq_rotateLeft _ (Nat.mod_lt _ (by decide))]

/-- Settles O40: the offsets of the table are those of the walk, which stays among the lanes and meets all but lane 0. -/
theorem rhoFollowsTheWalk : Obligations.RhoFollowsTheWalk :=
  ⟨fun a => ⟨lane_rho_zero a, fun _ ht => lane_rho_rhoWalk a ht⟩, fun i hpos hi => rhoWalk_meets i hi hpos⟩

/-! Iota -/

/-- A step of the shift register of R136. -/
def shiftRegisterStep (n : Nat) : Nat := if 256 ≤ 2 * n then (2 * n) ^^^ 0x171 else 2 * n

/-- `rc(t)` of R136. -/
def shiftRegisterBit (t : Nat) : Nat := shiftRegisterStep^[t] 1 % 2

/-- The table of R135 holds the bits of the shift register at the positions `2^j - 1`. -/
theorem roundConstant_bit : ∀ r < 24, ∀ j < 7,
    (roundConstant r).getLsbD (2 ^ j - 1) = true ↔ shiftRegisterBit (j + 7 * r) = 1 := by decide

/-- The table of R135 holds no other bit. -/
theorem roundConstant_no_other_bit : ∀ r < 24, ∀ z < 64,
    (roundConstant r).getLsbD z = true → ∃ j < 7, z = 2 ^ j - 1 := by decide

theorem roundConstant_getLsbD_iff {r z : Nat} (hr : r < 24) (hz : z < 64) :
    (roundConstant r).getLsbD z = true ↔ ∃ j, j < 7 ∧ z = 2 ^ j - 1 ∧ shiftRegisterBit (j + 7 * r) = 1 := by
  constructor
  · intro hbit
    obtain ⟨j, hj, rfl⟩ := roundConstant_no_other_bit r hr z hz hbit
    exact ⟨j, hj, rfl, (roundConstant_bit r hr j hj).1 hbit⟩
  · rintro ⟨j, hj, rfl, hrc⟩
    exact (roundConstant_bit r hr j hj).2 hrc

/-- Settles O41: Iota writes lane 0 only, and its table is what the shift register generates. -/
theorem iotaFollowsTheShiftRegister : Obligations.IotaFollowsTheShiftRegister := fun a r hr =>
  ⟨fun i hpos _ => lane_xorLane_ne a 0 i _ (by omega),
    roundConstant r, lane_setLane_self a 0 _ (by decide), fun _ hz => roundConstant_getLsbD_iff hr hz⟩

end Sys2Proof.Machine
end

section
/-! PROOF. The permutation of 42_permutation.md in both modes (R137 to R139), what it depends on (R144), and the commands PERM.P
and PERM.X (R140, R141). -/

namespace Sys2Proof.Machine

/-! The rounds -/

/-- The feedback step writes lane 0 alone (R138): the selector of its resolution is lane 1, the value lane 0. -/
theorem lane_feedback (cfg : Config) (b : Lanes) (sh : Shared) (i : Nat) :
    lane (feedback cfg b sh).1 i =
      if i = 0 then lane b 0 ^^^ (resolveIndex (reduceWord cfg (lane b 1) (lane b 0)) sh).1 else lane b i :=
  lane_xorLane b 0 i _ (by decide)

/-- An Extended permutation resolves 24 times, and that is all it does to the shared state. -/
theorem extendedRounds_counts (cfg : Config) (a : Lanes) (sh : Shared) :
    ∃ h m, h + m = 24 ∧ (extendedRounds cfg 24 a sh).2 = { sh with
      cntCalls := sh.cntCalls + 24
      cntHits := sh.cntHits + BitVec.ofNat 64 h
      cntMisses := sh.cntMisses + BitVec.ofNat 64 m } := by
  obtain ⟨h, m, hsum, hshared⟩ := extendedRounds_shared cfg 24 a sh
  refine ⟨h, m, hsum, ?_⟩
  rw [hshared, Shared.counted, hsum]
  rfl

/-- Settles O42: the rounds are recursive in their number, the last of them Theta, Rho, Pi, Chi, Iota and the feedback step. -/
theorem permutationByRounds : Obligations.PermutationByRounds := by
  intro cfg a sh
  refine ⟨keccakP_plain cfg a sh, plainRounds_zero a, fun n => plainRounds_succ n a, keccakP_extended cfg a sh,
    extendedRounds_zero cfg a sh, fun n => ?lastRound, extendedRounds_counts cfg a sh⟩
  case lastRound =>
    rw [extendedRounds_succ]
    exact ⟨rfl, fun i _ => lane_feedback cfg _ _ i⟩

/-! What the Extended permutation depends on -/

/-- The shared states resolve every index to the same value. -/
def Shared.ResolvesAs (sh sh' : Shared) : Prop := ∀ i : Word, (resolveIndex i sh).1 = (resolveIndex i sh').1

theorem Shared.resolvesAs_of_same_covered {sh sh' : Shared} (hpages : sh.tblPages = sh'.tblPages)
    (hread : ∀ i : Word, sh.covers i.toNat = true → sh.tblRead i = sh'.tblRead i) : sh.ResolvesAs sh' := by
  intro i
  have hcovers : sh'.covers i.toNat = sh.covers i.toNat := by rw [Shared.covers, ← hpages, Shared.covers]
  cases h : sh.covers i.toNat with
  | true => rw [resolveIndex_covered h, resolveIndex_covered (hcovers.trans h), hread i h]
  | false => rw [resolveIndex_uncovered h, resolveIndex_uncovered (hcovers.trans h)]

theorem Shared.resolvesAs_of_tableCorrect {sh sh' : Shared} (h : sh.tableCorrect) (h' : sh'.tableCorrect) :
    sh.ResolvesAs sh' := fun i => (resolveIndex_tableCorrect h i).trans (resolveIndex_tableCorrect h' i).symm

/-- Rounds only count, so the resolutions after them have the values of those before. -/
theorem resolveIndex_extendedRounds (cfg : Config) (n : Nat) (a : Lanes) (sh : Shared) (i : Word) :
    (resolveIndex i (extendedRounds cfg n a sh).2).1 = (resolveIndex i sh).1 := by
  obtain ⟨h, m, -, hshared⟩ := extendedRounds_shared cfg n a sh
  rw [hshared, resolveIndex_counted]

theorem reduceWord_congr {cfg cfg' : Config} (hsmall : cfg.smallSpace = cfg'.smallSpace) (htiers : cfg.tiers = cfg'.tiers)
    (sel val : Word) : reduceWord cfg sel val = reduceWord cfg' sel val := by
  rw [reduceWord, hsmall, htiers, reduceWord]

/-- The lanes after any number of rounds depend on the configuration through the reduction, on the shared state through the
values it resolves to. -/
theorem extendedRounds_congr {cfg cfg' : Config} {sh sh' : Shared}
    (hreduce : ∀ sel val, reduceWord cfg sel val = reduceWord cfg' sel val) (hresolve : sh.ResolvesAs sh')
    (n : Nat) (a : Lanes) : (extendedRounds cfg n a sh).1 = (extendedRounds cfg' n a sh').1 := by
  induction n with
  | zero => rfl
  | succ n ih =>
    simp only [extendedRounds_succ, extendedRound, feedback, resolveIndex_extendedRounds, ih, hreduce, hresolve _]

/-- Settles O43: equal reduction parameters reduce alike, and tables that agree where they are covered, or are both correct,
resolve alike. -/
theorem extendedPermutationIsDetermined : Obligations.ExtendedPermutationIsDetermined := by
  intro cfg cfg' a sh sh' hsmall htiers
  have lanes_eq (h : sh.ResolvesAs sh') : (keccakP cfg .extended a sh).1 = (keccakP cfg' .extended a sh').1 :=
    extendedRounds_congr (reduceWord_congr hsmall htiers) h rounds a
  exact ⟨fun hpages hread => lanes_eq (Shared.resolvesAs_of_same_covered hpages hread),
    fun h h' => lanes_eq (Shared.resolvesAs_of_tableCorrect h h')⟩

/-! The commands -/

section
variable {s : State} (m : Mode)

theorem exec_permOf : exec (permOf m) s = unlessSealed s (answer (s.permute m) .ok) := by cases m <;> rfl

theorem exec_permOf_ready (h : s.ready) : exec (permOf m) s = .next { s with
    eng := { s.eng with lanes := (keccakP s.cfg m s.eng.lanes s.shared).1 }
    shared := (keccakP s.cfg m s.eng.lanes s.shared).2
    resp := some .ok } := by
  obtain ⟨hlive, hunsealed⟩ := h
  rw [exec_permOf, unlessSealed_ready hlive hunsealed]
  rfl

theorem exec_permOf_sealed (hlive : s.live) (hsealed : s.eng.sealed = true) :
    exec (permOf m) s = .next ((s.withFault 2).respond (.fault 2)) := by
  rw [exec_permOf, unlessSealed_sealed hlive hsealed]
  rfl

end

/-- Settles O22: PERM of the Plain mode, which carries the shared state through. -/
theorem permutePlain : Obligations.PermutePlain := fun _ =>
  ⟨exec_permOf_ready .plain, exec_permOf_sealed .plain⟩

/-- Settles O23: PERM of the Extended mode, whose 24 rounds only count in the shared state. -/
theorem permuteExtended : Obligations.PermuteExtended := by
  intro s
  rw [← keccakP_extended]
  exact ⟨exec_permOf_ready .extended, extendedRounds_counts s.cfg s.eng.lanes s.shared, exec_permOf_sealed .extended⟩

end Sys2Proof.Machine
end

section
/-! PROOF. The digests of 43_sponge_context.md (R166 to R175). A message under 72 bytes calls no permutation, and an Extended
absorption counts the resolutions of one permutation call for each time the position comes round to the start of a block. -/

namespace Sys2Proof.Machine

/-! Padding and chunks -/

theorem lane_xorLane_eq_xor (a : Lanes) {i : Nat} (hi : i < 25) (v : Word) (j : Nat) :
    lane (xorLane a i v) j = lane a j ^^^ (if j = i then v else 0) := by
  rw [lane_xorLane a i j v hi]
  split
  · subst i; rfl
  · exact BitVec.xor_zero.symm

/-- Settles O47: the two exclusive-ors of `Pad`, read lane by lane. -/
theorem paddingByLane : Obligations.PaddingByLane := by
  intro c l hcursor _
  rw [pad_eq, lane_xorLane_eq_xor _ (by decide), lane_xorLane_eq_xor _ (by omega)]

/-- Settles O48: absorbing a concatenation is absorbing its parts in turn. -/
theorem chunksDoNotMatter : Obligations.ChunksDoNotMatter := by
  intro σ perm chunks
  induction chunks with
  | nil => exact fun _ _ => rfl
  | cons chunk chunks ih =>
    intro c x
    rw [List.flatten_cons, absorbBytes_append, List.foldl_cons]
    exact ih _ _

/-! Messages that end before the block does -/

section
variable {σ τ : Type} (perm : Perm σ) (perm' : Perm τ) (x : σ) (y : τ) {c : Context}

/-- Before the last byte of a block the context does not depend on the permutation, and what it carries stays. -/
theorem absorbByte_eq_of_position_ne (b : Byte) (hpos : c.position ≠ 71) :
    absorbByte perm b c x = ((absorbByte perm' b c y).1, x) := by
  obtain ⟨hi, e⟩ | ⟨hi, hc, e⟩ | ⟨hi, hc, -⟩ := absorbByte_cases perm b c x
  · rw [e, absorbByte_within_word _ _ _ _ hi]
  · rw [e, absorbByte_word _ _ _ _ hi hc]
  · exact absurd (by simp only [Context.position, rate] at hc ⊢; omega) hpos

theorem absorbBytes_eq_of_position_add_lt (msg : List Byte) (hcursor : c.cursor.toNat ≤ 8)
    (hlen : c.position + msg.length < 72) : absorbBytes perm msg c x = ((absorbBytes perm' msg c y).1, x) := by
  induction msg generalizing c y with
  | nil => rfl
  | cons b bs ih =>
    rw [List.length_cons] at hlen
    rw [absorbBytes_cons, absorbByte_eq_of_position_ne perm perm' x y b (by omega)]
    exact ih _ (absorbByte_cursor_le perm' b y hcursor) (by rw [absorbByte_position perm' b y hcursor]; omega)

end

/-- Settles O49: the two absorptions leave the same context, and both are finished by the Plain permutation. -/
theorem shortMessagesForgetTheAbsorbMode : Obligations.ShortMessagesForgetTheAbsorbMode := by
  intro cfg msg sh hlen
  have habsorbed := absorbBytes_eq_of_position_add_lt (keccakP cfg .extended) plainPerm sh () msg
    (c := Context.reset) (by decide) (by rwa [Context.position_reset, Nat.zero_add])
  simp only [habsorbed]
  exact ⟨rfl, trivial⟩

/-! The resolutions of an Extended digest -/

theorem Shared.countedTo_zero (sh : Shared) : sh.CountedTo (· = 0) sh := ⟨0, 0, rfl, (Shared.counted_zero sh).symm⟩

theorem Shared.CountedTo.trans {n n' k : Nat} {sh sh' sh'' : Shared} (h : sh.CountedTo (· = n) sh')
    (h' : sh'.CountedTo (· = n') sh'') (hk : n + n' = k) : sh.CountedTo (· = k) sh'' := by
  obtain ⟨hits, misses, hn, rfl⟩ := h
  obtain ⟨hits', misses', hn', rfl⟩ := h'
  exact ⟨hits + hits', misses + misses', by omega, Shared.counted_counted ..⟩

theorem keccakP_extended_countedTo (cfg : Config) (a : Lanes) (sh : Shared) :
    sh.CountedTo (· = 24) (keccakP cfg .extended a sh).2 := extendedRounds_shared cfg 24 a sh

section
variable (cfg : Config) {c : Context} (hcursor : c.cursor.toNat ≤ 8) (sh : Shared)
include hcursor

/-- A byte counts one permutation call's resolutions if it is the 72nd of its block, none if it is not. -/
theorem absorbByte_extended_countedTo (b : Byte) :
    sh.CountedTo (· = 24 * ((c.position + 1) / 72)) (absorbByte (keccakP cfg .extended) b c sh).2 := by
  have hlt := Context.position_lt hcursor
  by_cases hpos : c.position = 71
  · rw [(absorbByte_last_of_block _ b sh hpos).2, hpos]
    exact keccakP_extended_countedTo ..
  · rw [(absorbByte_within_block _ b sh hpos).2, Nat.div_eq_of_lt (by omega)]
    exact Shared.countedTo_zero sh

/-- A message counts a permutation call's resolutions for each block it completes. -/
theorem absorbBytes_extended_countedTo (msg : List Byte) :
    sh.CountedTo (· = 24 * ((c.position + msg.length) / 72)) (absorbBytes (keccakP cfg .extended) msg c sh).2 := by
  induction msg generalizing c sh with
  | nil =>
    rw [List.length_nil, Nat.add_zero, Nat.div_eq_of_lt (Context.position_lt hcursor)]
    exact Shared.countedTo_zero sh
  | cons b bs ih =>
    have hbyte := absorbByte_extended_countedTo cfg hcursor sh b
    have hrest := ih (absorbByte_cursor_le (keccakP cfg .extended) b sh hcursor) (absorbByte (keccakP cfg .extended) b c sh).2
    rw [absorbByte_position _ b sh hcursor] at hrest
    rw [absorbBytes_cons, List.length_cons]
    exact hbyte.trans hrest (by omega)

end

theorem extendedDigest_countedTo (cfg : Config) (msg : List Byte) (sh : Shared) :
    sh.CountedTo (· = 24 * (msg.length / 72 + 1)) (extendedDigest cfg msg sh).2 := by
  have habsorbed := absorbBytes_extended_countedTo cfg (c := Context.reset) (by decide) sh msg
  rw [Context.position_reset, Nat.zero_add] at habsorbed
  rw [extendedDigest, digestOf, finalize_carried]
  exact habsorbed.trans (keccakP_extended_countedTo ..) (by omega)

/-- Settles O50: one permutation call for each completed block and one for the last, each of 24 resolutions. -/
theorem extendedDigestCounts : Obligations.ExtendedDigestCounts := by
  intro cfg msg sh
  obtain ⟨h, m, hsum, hshared⟩ := extendedDigest_countedTo cfg msg sh
  exact ⟨h, m, hsum, by rw [hshared, Shared.counted, hsum]⟩

end Sys2Proof.Machine
end

section
/-! PROOF. The commands of 43_sponge_context.md: INIT (R161), ABSB (R162, R163), FIN (R164, R165) and the access commands RDLANE,
WRLANE and RDCSR (R169 to R171), and what a sealed context refuses (R176). ABSB and FIN are described once for both modes. -/

namespace Sys2Proof.Machine

/-! INIT -/

/-- Settles O16: the reset context and FAULT 0 are the reset engine. -/
theorem initZeroesTheContext : Obligations.InitZeroesTheContext := by
  intro s
  refine ⟨fun hlive => ?_, fun hfault => unlessFaulted_faulted hfault _⟩
  rw [exec_init_live hlive]
  exact congrArg (fun e => Host.Outcome.next { s with eng := e, resp := some .ok }) (State.withContext_reset_eng hlive)

section
variable {s : State} (m : Mode) (b : Byte)

/-! A command that a sealed context refuses -/

/-- A command with the checks (1) and (3) of R197 raises SEALED_USE on a sealed context, and that is all it does. -/
theorem exec_sealedUse {i : Instr} {r : Result} (hi : exec i s = unlessSealed s r) (hlive : s.live)
    (hsealed : s.eng.sealed = true) : exec i s = .next { s with
      eng := { s.eng with fault := 2 }, resp := some (.fault 2) } :=
  hi.trans (unlessSealed_sealed hlive hsealed r)

theorem exec_eq_of_ready {i : Instr} {r : Result} (hi : exec i s = unlessSealed s r) (h : s.ready) : exec i s = r :=
  hi.trans (unlessSealed_ready h.1 h.2 r)

/-! ABSB -/

theorem exec_absbOf : exec (absbOf m b) s = unlessSealed s (answer (s.absorb m b) .ok) := by cases m <;> rfl

/-- ABSB puts in place the context and the shared state that absorbing the byte leaves. -/
theorem exec_absbOf_of_absorbByte {c : Context} {sh : Shared} (h : s.ready)
    (hbyte : absorbByte (keccakP s.cfg m) b s.eng.toContext s.shared = (c, sh)) :
    exec (absbOf m b) s = .next (((s.withContext c).withShared sh).respond .ok) := by
  rw [exec_eq_of_ready (exec_absbOf m b) h, State.absorb, hbyte]
  rfl

theorem exec_absbOf_within_word (h : s.ready) (hbyte : s.eng.byteIdx.toNat < 7) :
    exec (absbOf m b) s = .next { s with
      eng := { s.eng with saved := s.eng.accumulated b, byteIdx := s.eng.byteIdx + 1 }, resp := some .ok } :=
  exec_absbOf_of_absorbByte m b h (absorbByte_within_word _ _ _ _ (by omega))

theorem exec_absbOf_word (h : s.ready) (hbyte : s.eng.byteIdx.toNat = 7) (hcursor : s.eng.cursor.toNat ≠ 8) :
    exec (absbOf m b) s = .next { s with
      eng := { s.eng with lanes := s.eng.folded b, saved := 0, byteIdx := 0, cursor := s.eng.cursor + 1 }
      resp := some .ok } :=
  exec_absbOf_of_absorbByte m b h
    (absorbByte_word _ _ _ _ (congrArg (· + 1) hbyte) fun hrate => hcursor (Nat.succ.inj hrate))

theorem exec_absbOf_block (h : s.ready) (hbyte : s.eng.byteIdx.toNat = 7) (hcursor : s.eng.cursor.toNat = 8) :
    exec (absbOf m b) s = .next { s with
      eng := { s.eng with
        lanes := (keccakP s.cfg m (s.eng.folded b) s.shared).1, saved := 0, byteIdx := 0, cursor := 0 }
      shared := (keccakP s.cfg m (s.eng.folded b) s.shared).2
      resp := some .ok } :=
  exec_absbOf_of_absorbByte m b h (absorbByte_block _ _ _ _ (congrArg (· + 1) hbyte) (congrArg (· + 1) hcursor))

/-! FIN -/

theorem exec_finOf : exec (finOf m) s =
    unlessSealed s (answer (s.finalize m) (.digest (digest (s.finalize m).eng.lanes))) := by cases m <;> rfl

theorem exec_finOf_ready (h : s.ready) : exec (finOf m) s = .next { s with
    eng := { s.eng with lanes := (keccakP s.cfg m (pad s.eng.toContext) s.shared).1, sealed := true }
    shared := (keccakP s.cfg m (pad s.eng.toContext) s.shared).2
    resp := some (.digest (digest (keccakP s.cfg m (pad s.eng.toContext) s.shared).1)) } :=
  exec_eq_of_ready (exec_finOf m) h

end

/-- Settles O18: ABSB of the Plain mode, whose permutation carries the shared state through. -/
theorem absorbPlainByte : Obligations.AbsorbPlainByte := fun _ b =>
  ⟨exec_absbOf_within_word .plain b, exec_absbOf_word .plain b, exec_absbOf_block .plain b,
    exec_sealedUse (exec_absbOf .plain b)⟩

/-- Settles O19: ABSB of the Extended mode, whose 24 rounds only count in the shared state. -/
theorem absorbExtendedByte : Obligations.AbsorbExtendedByte := fun s b =>
  ⟨exec_absbOf_within_word .extended b, exec_absbOf_word .extended b, exec_absbOf_block .extended b,
    extendedRounds_counts s.cfg (s.eng.folded b) s.shared, exec_sealedUse (exec_absbOf .extended b)⟩

/-- Settles O20: FIN of the Plain mode. -/
theorem finalizePlain : Obligations.FinalizePlain := fun _ =>
  ⟨exec_finOf_ready .plain, exec_sealedUse (exec_finOf .plain)⟩

/-- Settles O21: FIN of the Extended mode, whose 24 rounds only count in the shared state. -/
theorem finalizeExtended : Obligations.FinalizeExtended := fun s =>
  ⟨exec_finOf_ready .extended, extendedRounds_counts s.cfg (pad s.eng.toContext) s.shared,
    exec_sealedUse (exec_finOf .extended)⟩

/-! RDLANE and WRLANE -/

theorem setLane_eq_set (a : Lanes) {i : Nat} (h : i < 25) (v : Word) : setLane a i v = a.set i v h := by
  apply lanes_ext
  intro j hj
  rw [lane_setLane a i j v h, lane_eq_getElem _ _ hj, lane_eq_getElem _ _ hj, Vector.getElem_set]
  simp only [eq_comm]

section
variable {s : State} {l : BitVec 5} (h : l.toNat < 25)
include h

theorem exec_rdlane : exec (.rdlane l) s = answer s (.data64 (lane s.eng.lanes l.toNat)) :=
  if_pos ((laneExists_iff l).2 h)

theorem exec_wrlane : exec (.wrlane l) s = unlessSealed s (answer (s.writeLane l.toNat s.lowOperand) .ok) :=
  if_pos ((laneExists_iff l).2 h)

end

/-- Settles O24: RDLANE checks neither FAULT nor SEALED. -/
theorem readLane : Obligations.ReadLane := by
  intro s l h
  rw [exec_rdlane h, lane_eq_getElem _ _ h]
  rfl

/-- Settles O25: writing an existing lane sets it. -/
theorem writeLane : Obligations.WriteLane := by
  intro s l h
  refine ⟨fun hready => ?_, exec_sealedUse (exec_wrlane h)⟩
  rw [exec_eq_of_ready (exec_wrlane h) hready, State.writeLane, setLane_eq_set _ h]
  rfl

/-! RDCSR -/

theorem toNat_append_eq_add {n k : Nat} (x : BitVec n) (y : BitVec k) : (x ++ y).toNat = 2 ^ k * x.toNat + y.toNat := by
  rw [BitVec.toNat_append, ← Nat.shiftLeft_add_eq_or_of_lt y.isLt, Nat.shiftLeft_eq, Nat.mul_comm]

theorem eq_ofNat_of_toNat_eq {v : Word} {n : Nat} (h : v.toNat = n) : v = BitVec.ofNat 64 n := by
  rw [← h, BitVec.ofNat_toNat, BitVec.setWidth_eq]

section
variable (s : State)

/-- `STATUS` as the sum of its fields (10_state.md R31). -/
theorem State.status_eq : s.status = BitVec.ofNat 64
    ((if s.eng.sealed then 1 else 0) + 2 * (if s.shared.tblPages = 0 then 0 else 1) + 4 * s.eng.fault.toNat) := by
  have hready : s.tblReady.toNat = if s.shared.tblPages = 0 then 0 else 1 := by
    rw [State.tblReady]
    split
    · next hzero => rw [hzero]; rfl
    · next hne => rw [bne_iff_ne.2 hne]; rfl
  have hsealed : s.eng.sealed.toNat = if s.eng.sealed then 1 else 0 := by cases s.eng.sealed <;> rfl
  rw [← hready, ← hsealed]
  apply eq_ofNat_of_toNat_eq
  simp only [State.status, toNat_append_eq_add, BitVec.toNat_ofBool, BitVec.toNat_ofNat]
  omega

/-- `POS` as the sum of its fields (10_state.md R32). -/
theorem State.pos_eq : s.pos = BitVec.ofNat 64 (s.eng.cursor.toNat + 16 * s.eng.byteIdx.toNat) := by
  apply eq_ofNat_of_toNat_eq
  simp only [State.pos, toNat_append_eq_add, BitVec.toNat_ofNat]
  omega

theorem State.pages_eq : s.pages = BitVec.ofNat 64 s.shared.tblPages.toNat := (BitVec.ofNat_toNat 64 _).symm

end

section
variable {s : State} {n : BitVec 3}

theorem exec_rdcsr_some {v : Word} (h : s.csr n = some v) : exec (.rdcsr n) s = answer s (.data64 v) := by
  show execRdcsr n s = _
  rw [execRdcsr, h]

theorem exec_rdcsr_none (h : s.csr n = none) : exec (.rdcsr n) s = illegalCommand s := by
  show execRdcsr n s = _
  rw [execRdcsr, h]

end

/-- Settles O26: the CSRs by number, STATUS and POS as the sums of their fields; number 7 has no value. -/
theorem readCsr : Obligations.ReadCsr := by
  intro s
  rw [← State.status_eq, ← State.pos_eq, ← State.pages_eq]
  exact ⟨exec_rdcsr_some rfl, exec_rdcsr_some rfl, exec_rdcsr_some rfl, exec_rdcsr_some rfl, exec_rdcsr_some rfl,
    exec_rdcsr_some rfl, exec_rdcsr_some rfl, fun hlive => (exec_rdcsr_none rfl).trans (illegalCommand_live hlive)⟩

/-! A sealed context -/

/-- The command goes on without SEALED_USE in `FAULT`. -/
def AvoidsSealedUse (r : Result) : Prop := ∃ t, r = .next t ∧ t.eng.fault ≠ 2

theorem avoidsSealedUse_answer {t : State} (h : t.eng.fault = 0) (r : Response) : AvoidsSealedUse (answer t r) :=
  ⟨t.respond r, rfl, by rw [State.respond_eng, h]; decide⟩

theorem avoidsSealedUse_raiseFault {f : FaultCode} (h : f.code ≠ 2) (s : State) : AvoidsSealedUse (raiseFault f s) :=
  ⟨_, raiseFault_eq f s, h⟩

section
variable {s : State}

theorem exec_eq_unlessSealed (b : Byte) {l : BitVec 5} (hl : l.toNat < 25) :
    ∀ i ∈ [Instr.absbP b, .absbX b, .finP, .finX, .permP, .permX, .wrlane l], ∃ r, exec i s = unlessSealed s r := by
  simp only [List.forall_mem_cons]
  exact ⟨⟨_, exec_absbOf .plain b⟩, ⟨_, exec_absbOf .extended b⟩, ⟨_, exec_finOf .plain⟩, ⟨_, exec_finOf .extended⟩,
    ⟨_, exec_permOf .plain⟩, ⟨_, exec_permOf .extended⟩, ⟨_, exec_wrlane hl⟩, nofun⟩

variable (hlive : s.live)
include hlive

theorem illegalCommand_avoidsSealedUse : AvoidsSealedUse (illegalCommand s) := by
  rw [illegalCommand, unlessFaulted_live hlive]
  exact avoidsSealedUse_raiseFault (by decide) s

theorem exec_avoidsSealedUse (l : BitVec 5) (n : BitVec 3) :
    ∀ i ∈ [Instr.init, .rdlane l, .rdcsr n, .reduce, .resolve, .tblrd, .tblinit], AvoidsSealedUse (exec i s) := by
  simp only [List.forall_mem_cons]
  refine ⟨?init, ?rdlane, ?rdcsr, ?reduce, ?resolve, ?tblrd, ?tblinit, nofun⟩
  case init =>
    rw [exec_init_live hlive]
    exact avoidsSealedUse_answer (t := s.withContext Context.reset) hlive _
  case rdlane =>
    show AvoidsSealedUse (execRdlane l s)
    rw [execRdlane]
    split
    · exact avoidsSealedUse_answer hlive _
    · exact illegalCommand_avoidsSealedUse hlive
  case rdcsr =>
    cases hcsr : s.csr n with
    | some v => rw [exec_rdcsr_some hcsr]; exact avoidsSealedUse_answer hlive _
    | none => rw [exec_rdcsr_none hcsr]; exact illegalCommand_avoidsSealedUse hlive
  case reduce =>
    show AvoidsSealedUse (execReduce s)
    rw [execReduce, unlessFaulted_live hlive]
    exact avoidsSealedUse_answer hlive _
  case resolve =>
    rw [exec_resolve_live hlive]
    exact avoidsSealedUse_answer (t := s.withShared (resolveIndex s.lowOperand s.shared).2) hlive _
  case tblrd =>
    cases hcovers : s.shared.covers s.lowOperand.toNat with
    | true => rw [exec_tblrd_covered hlive hcovers]; exact avoidsSealedUse_answer hlive _
    | false => rw [exec_tblrd_uncovered hlive hcovers]; exact avoidsSealedUse_raiseFault (by decide) s
  case tblinit =>
    cases hio : s.ioOk with
    | true => rw [exec_tblinit_built hlive hio]; exact avoidsSealedUse_answer (t := s.tableBuilt) hlive _
    | false => rw [exec_tblinit_lost hlive hio]; exact avoidsSealedUse_raiseFault (by decide) _

end

/-- Settles O51: seven commands have check (3), the other seven do not, and the reset context is not sealed. -/
theorem sealedContextRefusesSeven : Obligations.SealedContextRefusesSeven := by
  intro s
  refine ⟨fun hready => ?seals, fun hlive hsealed => ⟨?refused, exec_avoidsSealedUse hlive, ?unseals⟩⟩
  case seals =>
    simp only [List.forall_mem_cons]
    exact ⟨⟨_, exec_finOf_ready .plain hready, rfl⟩, ⟨_, exec_finOf_ready .extended hready, rfl⟩, nofun⟩
  case refused =>
    intro b l hl i hi
    obtain ⟨r, hr⟩ := exec_eq_unlessSealed b hl i hi
    exact exec_sealedUse hr hlive hsealed
  case unseals => exact ⟨_, exec_init_live hlive, rfl⟩

end Sys2Proof.Machine
end

section
/-! PROOF. The faults of 60_exceptions.md: what a faulted engine still executes (R196, R197), that a fault is precise (R190), and the
steps on which no command executes. -/

namespace Sys2Proof.Machine

/-! The step on a command -/

/-- A command of an engine that exists is executed on the state that Safety.lean presents it. -/
theorem step_presented {s : State} {c : Command} {rest : List PortEvent} {e : Engine} (hport : s.port = .command c :: rest)
    (he : s.engines[c.engine]? = some e) : step s = execWord c.word (s.presented c rest e) :=
  (step_command hport).trans (executeCommand_presented he rest)

theorem step_absent {s : State} {c : Command} {rest : List PortEvent} (hport : s.port = .command c :: rest)
    (hc : s.engines.length ≤ c.engine) : step s = .fault .noSuchEngine := by
  rw [step_command hport, executeCommand, State.accept_none hc]

/-- Settles O15: such a command is not accepted. -/
theorem absentEngineStops : Obligations.AbsentEngineStops := fun _ _ _ => step_absent

/-- Settles O14: with an empty port no event is taken. -/
theorem idleStepHoldsTheState : Obligations.IdleStepHoldsTheState := by
  intro s hport
  rw [step, takeEvent, hport]

/-- Settles O9: the word is refused by the decoder, and an illegal command on an engine without fault raises ILLEGAL_CMD. -/
theorem stepRaisesIllegalCommand : Obligations.StepRaisesIllegalCommand := by
  intro s c rest e x hport he hx hlive
  calc step s
    _ = execWord c.word (s.presented c rest e) := step_presented hport he
    _ = illegalCommand (s.presented c rest e) := execWord_error hx _
    _ = _ := illegalCommand_live hlive

/-! A faulted engine -/

/-- Settles O53: but for the refusal and the two readers, every result that `exec_elim` lists supposes an engine without fault. -/
theorem faultedEngineRefusesCommands : Obligations.FaultedEngineRefusesCommands := by
  intro i s hfault hlane hcsr
  refine exec_elim (P := (· = .next (s.respond (.refused s.eng.fault)))) i s ?init ?absb ?fin ?perm ?rdlane ?wrlane ?reduce
    ?resolve ?tblinit ?tblLost ?tblrd ?rdcsr ?raised ?refused
  case rdlane => exact fun l hi => absurd hi (hlane l)
  case rdcsr => exact fun n _ hi _ => absurd hi (hcsr n)
  case refused => exact fun _ => refuseFaulted_eq s
  all_goals intros; contradiction

/-- A word that is not one of the two readers' is refused on a faulted engine, legal or illegal. -/
theorem execWord_faulted {w : CmdWord} {s : State} (hfault : s.eng.fault ≠ 0) (hlane : ∀ l, decode w ≠ .ok (.rdlane l))
    (hcsr : ∀ n, decode w ≠ .ok (.rdcsr n)) : execWord w s = .next (s.respond (.refused s.eng.fault)) := by
  cases hw : decode w with
  | ok i =>
    rw [execWord_ok hw]
    exact faultedEngineRefusesCommands i s hfault (fun l hi => hlane l (hi ▸ hw)) fun n hi => hcsr n (hi ▸ hw)
  | error x =>
    rw [execWord_error hw]
    exact unlessFaulted_faulted hfault _

/-- The lane of a legal RDLANE exists, so the word responds it, faulted or not. -/
theorem execWord_rdlane {w : CmdWord} {l : BitVec 5} (hw : decode w = .ok (.rdlane l)) (s : State) :
    execWord w s = .next (s.respond (.data64 (lane s.eng.lanes l.toNat))) := by
  obtain ⟨-, hwf⟩ := decode_eq_ok_iff.mp hw
  rw [execWord_ok hw, exec_rdlane ((laneExists_iff l).1 hwf)]
  rfl

/-- The CSR of a legal RDCSR exists, so the word responds it, faulted or not. -/
theorem execWord_rdcsr {w : CmdWord} {n : BitVec 3} (hw : decode w = .ok (.rdcsr n)) (s : State) :
    ∃ v, s.csr n = some v ∧ execWord w s = .next (s.respond (.data64 v)) := by
  obtain ⟨-, hwf⟩ := decode_eq_ok_iff.mp hw
  obtain ⟨v, hv⟩ := Option.isSome_iff_exists.mp ((s.csr_isSome n).trans hwf)
  exact ⟨v, hv, by rw [execWord_ok hw, exec_rdcsr_some hv, answer_eq]⟩

/-- Settles O10: the three kinds of words on the state that the command is presented. -/
theorem stepOnFaultedEngine : Obligations.StepOnFaultedEngine := by
  intro s c rest e hport he hfault
  rw [step_presented hport he]
  exact ⟨execWord_faulted hfault, fun _ hw => execWord_rdlane hw _, fun _ hw => execWord_rdcsr hw _⟩

/-! Precision -/

/-- The two ways to raise a fault on `s` (R190): in the state as it is, or, for TBL_IO, with the table lost. -/
inductive State.RaisedTo (s : State) : State → Prop where
  | kept (f : FaultCode) (hf : f ≠ .tblIo) : s.RaisedTo ((s.withFault f.code).respond (.fault f.code))
  | tableLost : s.RaisedTo ((s.tableLost.withFault FaultCode.tblIo.code).respond (.fault FaultCode.tblIo.code))

theorem FaultCode.code_ne_four {f : FaultCode} (hf : f ≠ .tblIo) : f.code ≠ 4 := by
  cases f with
  | tblIo => exact absurd rfl hf
  | _ => decide

/-- A command on an engine without fault leaves it without one, or raises one. -/
theorem exec_live_or_raised {s : State} (hlive : s.live) (i : Instr) :
    Ensures (fun t => t.live ∨ s.RaisedTo t) (exec i s) := by
  refine exec_elim i s ?init ?absb ?fin ?perm ?rdlane ?wrlane ?reduce ?resolve ?tblinit ?tblLost ?tblrd ?rdcsr ?raised ?refused
  case raised => exact fun f hf _ => ensures_raiseFault (.inr (.kept f hf))
  case tblLost => intros; exact ensures_raiseFault (.inr .tableLost)
  case refused => exact fun hfault => absurd hlive hfault
  all_goals intros; exact ensures_answer (.inl hlive)

/-- Settles O52: a command that leaves a fault raised it, with a code other than 4 in the state before it, or losing the table. -/
theorem faultsArePrecise : Obligations.FaultsArePrecise := by
  intro i s t hlive hstep hfault
  obtain hkept | hraised := exec_live_or_raised hlive i t hstep
  · exact absurd hkept hfault
  cases hraised with
  | kept f hf =>
    obtain ⟨hlow, hhigh⟩ := f.code_bounds
    exact ⟨hlow, hhigh, rfl, fun _ => rfl, fun hfour => absurd hfour (FaultCode.code_ne_four hf)⟩
  | tableLost =>
    obtain ⟨hlow, hhigh⟩ := FaultCode.tblIo.code_bounds
    exact ⟨hlow, hhigh, rfl, fun hne => absurd rfl hne, fun _ => ⟨rfl, rfl⟩⟩

end Sys2Proof.Machine
end

section
/-! PROOF. Several engines (60_exceptions.md R203, R205). A command leaves everything around its engine alone, and what it does to its
engine and to the counters depends on nothing but the configuration, the engine, the operand bus and the table; so commands on two
engines commute. -/

namespace Sys2Proof.Machine

/-! What is around the engine -/

/-- What is around the executing engine and the shared state is the same in `t` as in `s`. -/
structure State.SameSurroundings (s t : State) : Prop where
  cfg : t.cfg = s.cfg
  below : t.below = s.below
  above : t.above = s.above
  port : t.port = s.port

theorem exec_sameSurroundings (i : Instr) (s : State) : Ensures s.SameSurroundings (exec i s) := by
  refine exec_elim i s ?init ?absb ?fin ?perm ?rdlane ?wrlane ?reduce ?resolve ?tblinit ?tblLost ?tblrd ?rdcsr ?raised ?refused
  case tblLost | raised => intros; exact ensures_raiseFault ⟨rfl, rfl, rfl, rfl⟩
  case refused => intros; exact ensures_refuseFaulted ⟨rfl, rfl, rfl, rfl⟩
  all_goals intros; exact ensures_answer ⟨rfl, rfl, rfl, rfl⟩

/-- What a command and an illegal command ensure, the word ensures. -/
theorem execWord_elim {P : Result → Prop} {w : CmdWord} {s : State} (legal : ∀ i, decode w = .ok i → P (exec i s))
    (illegal : P (illegalCommand s)) : P (execWord w s) := by
  unfold execWord
  split
  · exact legal _ ‹_›
  · exact illegal

theorem execWord_sameSurroundings (w : CmdWord) (s : State) : Ensures s.SameSurroundings (execWord w s) :=
  execWord_elim (fun i _ => exec_sameSurroundings i s)
    (unlessFaulted_elim (fun _ => ensures_raiseFault ⟨rfl, rfl, rfl, rfl⟩) fun _ =>
      ensures_refuseFaulted ⟨rfl, rfl, rfl, rfl⟩)

section
variable {s t : State} {c : Command} {rest : List PortEvent}

/-- A step on a command goes on only when the engine exists, and from the state it is presented. -/
theorem execWord_of_step_next (hport : s.port = .command c :: rest) (hstep : step s = .next t) :
    ∃ e, s.engines[c.engine]? = some e ∧ execWord c.word (s.presented c rest e) = .next t := by
  cases he : s.engines[c.engine]? with
  | some e => exact ⟨e, rfl, step_presented hport he ▸ hstep⟩
  | none =>
    rw [step_absent hport (List.getElem?_eq_none_iff.mp he)] at hstep
    cases hstep

/-- Around the presented engine are the other engines, in their places. -/
theorem State.SameSurroundings.engines {e : Engine} (he : s.engines[c.engine]? = some e)
    (h : (s.presented c rest e).SameSurroundings t) : t.engines = s.engines.set c.engine t.eng := by
  obtain ⟨hlt, -⟩ := List.getElem?_eq_some_iff.mp he
  rw [List.set_eq_take_append_cons_drop, if_pos hlt, State.engines, h.below, h.above]
  rfl

/-- A step on a command replaces its engine in the list of engines, and nothing else there. -/
theorem step_command_engines (hport : s.port = .command c :: rest) (hstep : step s = .next t) :
    t.cfg = s.cfg ∧ t.engines = s.engines.set c.engine t.eng := by
  obtain ⟨e, he, hword⟩ := execWord_of_step_next hport hstep
  have h := execWord_sameSurroundings _ _ t hword
  exact ⟨h.cfg, h.engines he⟩

end

/-- Settles O57: setting one place of a list keeps its length and the other places. -/
theorem otherEnginesAreUntouched : Obligations.OtherEnginesAreUntouched := by
  intro s t c rest hport hstep
  obtain ⟨hcfg, hengines⟩ := step_command_engines hport hstep
  rw [hengines]
  exact ⟨hcfg, List.length_set, fun k hk => List.getElem?_set_ne (Ne.symm hk)⟩

/-- On a faulted engine a word, whichever it is, changes the response only. -/
theorem execWord_faulted_responds (w : CmdWord) {s : State} (hfault : s.eng.fault ≠ 0) :
    ∃ r, execWord w s = .next (s.respond r) := by
  by_cases hlane : ∃ l, decode w = .ok (.rdlane l)
  · obtain ⟨l, hw⟩ := hlane
    exact ⟨_, execWord_rdlane hw s⟩
  by_cases hcsr : ∃ n, decode w = .ok (.rdcsr n)
  · obtain ⟨n, hw⟩ := hcsr
    obtain ⟨v, -, hnext⟩ := execWord_rdcsr hw s
    exact ⟨_, hnext⟩
  exact ⟨_, execWord_faulted hfault (not_exists.mp hlane) (not_exists.mp hcsr)⟩

/-- A command for a faulted engine leaves all engines as they were. -/
theorem step_faulted_engines {s t : State} {c : Command} {rest : List PortEvent} {e : Engine}
    (hport : s.port = .command c :: rest) (hstep : step s = .next t) (he : s.engines[c.engine]? = some e)
    (hfault : e.fault ≠ 0) : t.engines = s.engines := by
  obtain ⟨r, hr⟩ := execWord_faulted_responds c.word (s := s.presented c rest e) hfault
  obtain rfl := Host.Outcome.next.inj (hr.symm.trans ((step_presented hport he).symm.trans hstep))
  calc (s.presented c rest e).engines
    _ = s.engines := State.accept_engines (State.accept_presented he rest)

/-- Settles O11: a command for the faulted engine responds only, a command for another engine leaves it alone, and with an empty port
the state is held. -/
theorem faultedEngineStaysUntilReset : Obligations.FaultedEngineStaysUntilReset := by
  intro s t k e hstep hreset hk hfault
  cases hport : s.port with
  | nil =>
    obtain rfl := Host.Outcome.next.inj ((idleStepHoldsTheState s hport).symm.trans hstep)
    exact hk
  | cons event rest =>
    cases event with
    | reset => exact absurd (congrArg List.head? hport) hreset
    | command c =>
      by_cases hkc : k = c.engine
      · rw [step_faulted_engines hport hstep (hkc ▸ hk) hfault, hk]
      · obtain ⟨-, -, hother⟩ := otherEnginesAreUntouched s t c rest hport hstep
        rw [hother k hkc, hk]

/-! What a command depends on -/

/-- If the permutation commutes with a map `g` of what it carries, so does absorbing a byte. -/
theorem absorbByte_map {σ : Type} {perm : Perm σ} {g : σ → σ}
    (hperm : ∀ a x, perm a (g x) = ((perm a x).1, g (perm a x).2)) (b : Byte) (c : Context) (x : σ) :
    absorbByte perm b c (g x) = ((absorbByte perm b c x).1, g (absorbByte perm b c x).2) := by
  obtain ⟨hi, e⟩ | ⟨hi, hc, e⟩ | ⟨hi, hc, e⟩ := absorbByte_cases perm b c x <;> rw [e]
  · exact absorbByte_within_word _ _ _ _ hi
  · exact absorbByte_word _ _ _ _ hi hc
  · rw [absorbByte_block _ _ _ _ hi hc, hperm]

/-- The states agree in what a command reads, but that in `s'` `h` more hits and `m` more misses are counted. -/
structure State.ReadsLike (s s' : State) (h m : Nat) : Prop where
  cfg : s'.cfg = s.cfg
  eng : s'.eng = s.eng
  opnd : s'.opnd = s.opnd
  shared : s'.shared = s.shared.counted h m

/-- The results go on to such states; with the same response, if `p`. -/
def SameEffect (p : Prop) (h m : Nat) (r r' : Result) : Prop :=
  ∃ t t', r = .next t ∧ r' = .next t' ∧ t.ReadsLike t' h m ∧ (p → t'.resp = t.resp)

section
variable {p : Prop} {s s' : State} {h m : Nat} (hs : s.ReadsLike s' h m)
include hs

theorem State.ReadsLike.withContext (c : Context) : (s.withContext c).ReadsLike (s'.withContext c) h m :=
  ⟨hs.cfg, congrArg (fun e : Engine => { e with toContext := c }) hs.eng, hs.opnd, hs.shared⟩

theorem State.ReadsLike.withFault (code : BitVec 3) : (s.withFault code).ReadsLike (s'.withFault code) h m :=
  ⟨hs.cfg, congrArg (fun e : Engine => { e with fault := code }) hs.eng, hs.opnd, hs.shared⟩

theorem State.ReadsLike.withShared (sh : Shared) : (s.withShared sh).ReadsLike (s'.withShared (sh.counted h m)) h m :=
  ⟨hs.cfg, hs.eng, hs.opnd, rfl⟩

theorem State.ReadsLike.permute (md : Mode) : (s.permute md).ReadsLike (s'.permute md) h m := by
  have e : s'.permute md = (s'.withContext (s.permute md).eng.toContext).withShared ((s.permute md).shared.counted h m) := by
    rw [State.permute, hs.cfg, hs.eng, hs.shared, keccakP_counted]
    rfl
  exact e ▸ (hs.withContext _).withShared _

theorem State.ReadsLike.finalize (md : Mode) : (s.finalize md).ReadsLike (s'.finalize md) h m := by
  have e : s'.finalize md = (s'.withContext (s.finalize md).eng.toContext).withShared ((s.finalize md).shared.counted h m) := by
    rw [State.finalize, Machine.finalize, hs.cfg, hs.eng, hs.shared, keccakP_counted]
    rfl
  exact e ▸ (hs.withContext _).withShared _

theorem State.ReadsLike.absorb (md : Mode) (b : Byte) : (s.absorb md b).ReadsLike (s'.absorb md b) h m := by
  have e : s'.absorb md b = (s'.withContext (s.absorb md b).eng.toContext).withShared ((s.absorb md b).shared.counted h m) := by
    rw [State.absorb, hs.cfg, hs.eng, hs.shared,
      absorbByte_map (g := (Shared.counted · h m)) fun a sh => keccakP_counted s.cfg md a sh h m]
    rfl
  exact e ▸ (hs.withContext _).withShared _

theorem SameEffect.answer {r r' : Response} (hr : p → r' = r) : SameEffect p h m (answer s r) (answer s' r') :=
  ⟨_, _, rfl, rfl, ⟨hs.cfg, hs.eng, hs.opnd, hs.shared⟩, fun hp => congrArg some (hr hp)⟩

theorem SameEffect.raiseFault (f : FaultCode) : SameEffect p h m (raiseFault f s) (raiseFault f s') :=
  .answer (hs.withFault f.code) fun _ => rfl

theorem SameEffect.unlessFaulted {r r' : Result} (hr : SameEffect p h m r r') :
    SameEffect p h m (unlessFaulted s r) (unlessFaulted s' r') := by
  by_cases hf : s.eng.fault = 0
  · rwa [unlessFaulted_live hf, unlessFaulted_live (hs.eng ▸ hf)]
  · rw [unlessFaulted_faulted hf, unlessFaulted_faulted (hs.eng ▸ hf)]
    exact .answer hs fun _ => by rw [hs.eng]

theorem SameEffect.unlessSealed {r r' : Result} (hr : SameEffect p h m r r') :
    SameEffect p h m (unlessSealed s r) (unlessSealed s' r') := by
  refine .unlessFaulted hs ?_
  rw [hs.eng]
  split
  · exact .raiseFault hs _
  · exact hr

theorem illegalCommand_sameEffect : SameEffect p h m (illegalCommand s) (illegalCommand s') :=
  .unlessFaulted hs (.raiseFault hs _)

theorem execAbsb_sameEffect (md : Mode) (b : Byte) : SameEffect p h m (exec (absbOf md b) s) (exec (absbOf md b) s') := by
  rw [exec_absbOf, exec_absbOf]
  exact .unlessSealed hs (.answer (hs.absorb md b) fun _ => rfl)

theorem execFin_sameEffect (md : Mode) : SameEffect p h m (exec (finOf md) s) (exec (finOf md) s') := by
  rw [exec_finOf, exec_finOf]
  exact .unlessSealed hs (.answer (hs.finalize md) fun _ => by rw [(hs.finalize md).eng])

theorem execPerm_sameEffect (md : Mode) : SameEffect p h m (exec (permOf md) s) (exec (permOf md) s') := by
  rw [exec_permOf, exec_permOf]
  exact .unlessSealed hs (.answer (hs.permute md) fun _ => rfl)

theorem execRdlane_sameEffect (l : BitVec 5) : SameEffect p h m (execRdlane l s) (execRdlane l s') := by
  unfold execRdlane
  split
  · exact .answer hs fun _ => by rw [hs.eng]
  · exact illegalCommand_sameEffect hs

theorem execWrlane_sameEffect (l : BitVec 5) : SameEffect p h m (execWrlane l s) (execWrlane l s') := by
  unfold execWrlane
  split
  · rw [State.writeLane, State.writeLane, State.lowOperand, State.lowOperand, hs.eng, hs.opnd]
    exact .unlessSealed hs (.answer (hs.withContext _) fun _ => rfl)
  · exact illegalCommand_sameEffect hs

theorem execReduce_sameEffect : SameEffect p h m (execReduce s) (execReduce s') :=
  .unlessFaulted hs (.answer hs fun _ => by
    rw [State.highOperand, State.lowOperand, State.highOperand, State.lowOperand, hs.cfg, hs.opnd])

theorem execResolve_sameEffect : SameEffect p h m (execResolve s) (execResolve s') := by
  unfold execResolve
  rw [State.lowOperand, State.lowOperand, hs.opnd, hs.shared, resolveIndex_counted]
  exact .unlessFaulted hs (.answer (hs.withShared _) fun _ => rfl)

theorem execTblrd_sameEffect : SameEffect p h m (execTblrd s) (execTblrd s') := by
  unfold execTblrd
  rw [State.lowOperand, State.lowOperand, hs.opnd, hs.shared]
  refine .unlessFaulted hs ?_
  show SameEffect p h m _ (if s.shared.covers _ then _ else _)
  split
  · exact .answer hs fun _ => rfl
  · exact .raiseFault hs _

/-- RDCSR reads the counters, so only its response differs. -/
theorem execRdcsr_sameEffect (n : BitVec 3) (hp : ¬ p) : SameEffect p h m (execRdcsr n s) (execRdcsr n s') := by
  have hsome : (s'.csr n).isSome = (s.csr n).isSome := by rw [State.csr_isSome, State.csr_isSome]
  unfold execRdcsr
  cases hv : s.csr n <;> cases hv' : s'.csr n
  case none.none => exact illegalCommand_sameEffect hs
  case some.some => exact .answer hs fun h => absurd h hp
  all_goals simp [hv, hv'] at hsome

/-- A command but TBLINIT has the same effect in states that agree in what it reads, and but for RDCSR the same response. -/
theorem exec_sameEffect {i : Instr} (hi : i ≠ .tblinit) (hp : ∀ n, i = .rdcsr n → ¬ p) :
    SameEffect p h m (exec i s) (exec i s') := by
  cases i with
  | init => exact .unlessFaulted hs (.answer (hs.withContext Context.reset) fun _ => rfl)
  | absbP b => exact execAbsb_sameEffect hs .plain b
  | absbX b => exact execAbsb_sameEffect hs .extended b
  | finP => exact execFin_sameEffect hs .plain
  | finX => exact execFin_sameEffect hs .extended
  | permP => exact execPerm_sameEffect hs .plain
  | permX => exact execPerm_sameEffect hs .extended
  | rdlane l => exact execRdlane_sameEffect hs l
  | wrlane l => exact execWrlane_sameEffect hs l
  | reduce => exact execReduce_sameEffect hs
  | resolve => exact execResolve_sameEffect hs
  | tblinit => exact absurd rfl hi
  | rdcsr n => exact execRdcsr_sameEffect hs n (hp n rfl)
  | tblrd => exact execTblrd_sameEffect hs

theorem execWord_sameEffect {w : CmdWord} (hw : decode w ≠ .ok .tblinit) :
    SameEffect (∀ n, decode w ≠ .ok (.rdcsr n)) h m (execWord w s) (execWord w s') := by
  cases hd : decode w with
  | ok i =>
    rw [execWord_ok hd, execWord_ok hd]
    exact exec_sameEffect hs (fun hi => hw (hi ▸ hd)) fun n hi hne => hne n (hi ▸ rfl)
  | error x =>
    rw [execWord_error hd, execWord_error hd]
    exact illegalCommand_sameEffect hs

end

/-! What a command counts -/

/-- A command but TBLINIT does nothing to the shared state but count. -/
theorem exec_counted {i : Instr} (hi : i ≠ .tblinit) (s : State) :
    Ensures (fun t => ∃ h m, t.shared = s.shared.counted h m) (exec i s) := by
  intro t ht
  obtain ⟨htbl, hpages⟩ := exec_keepsTable hi s t ht
  obtain ⟨h, m, hcalls, hhits, hmisses, -⟩ := exec_countersMoved i s t ht
  refine ⟨h, m, ?_⟩
  rw [Shared.counted, ← hcalls, ← hhits, ← hmisses, ← htbl, ← hpages]

theorem execWord_counted {w : CmdWord} (hw : decode w ≠ .ok .tblinit) (s : State) :
    Ensures (fun t => ∃ h m, t.shared = s.shared.counted h m) (execWord w s) := by
  have unmoved : ∃ h m, s.shared = s.shared.counted h m := ⟨0, 0, s.shared.counted_zero.symm⟩
  exact execWord_elim (fun i hi => exec_counted (fun h => hw (h ▸ hi)) s)
    (unlessFaulted_elim (fun _ => ensures_raiseFault unmoved) fun _ => ensures_refuseFaulted unmoved)

/-! Two commands -/

/-- Issued alone on `s`, the command leaves `t`. -/
def State.LeavesAlone (s : State) (c : Command) (t : State) : Prop :=
  ∃ e, s.engines[c.engine]? = some e ∧ execWord c.word (s.presented c [] e) = .next t

section
variable {s : State} {c : Command} (hc : decode c.word ≠ .ok .tblinit)
include hc

theorem State.exists_leavesAlone (hlt : c.engine < s.engines.length) :
    ∃ t h m, s.LeavesAlone c t ∧ t.shared = s.shared.counted h m := by
  have hsame : (s.presented c [] s.engines[c.engine]).ReadsLike (s.presented c [] s.engines[c.engine]) 0 0 :=
    ⟨rfl, rfl, rfl, (Shared.counted_zero _).symm⟩
  obtain ⟨t, -, ht, -⟩ := execWord_sameEffect hsame hc
  obtain ⟨h, m, hshared⟩ := execWord_counted hc _ t ht
  exact ⟨t, h, m, ⟨_, List.getElem?_eq_getElem hlt, ht⟩, hshared⟩

/-- Issued on a state that differs from `s` in other engines and in the counters, a command has the effect that it has alone. -/
theorem State.LeavesAlone.step {q t : State} {rest : List PortEvent} {h m : Nat} (halone : s.LeavesAlone c t)
    (hport : q.port = .command c :: rest) (hcfg : q.cfg = s.cfg) (heng : q.engines[c.engine]? = s.engines[c.engine]?)
    (hshared : q.shared = s.shared.counted h m) :
    ∃ t', Machine.step q = .next t' ∧ t'.cfg = s.cfg ∧ t'.port = rest ∧ t'.engines = q.engines.set c.engine t.eng ∧
      t'.shared = t.shared.counted h m ∧ ((∀ n, decode c.word ≠ .ok (.rdcsr n)) → t'.resp = t.resp) := by
  obtain ⟨e, he, ht⟩ := halone
  have hreads : (s.presented c [] e).ReadsLike (q.presented c rest e) h m := ⟨hcfg, rfl, rfl, hshared⟩
  obtain ⟨x, t', hx, ht', hlike, hresp⟩ := execWord_sameEffect hreads hc
  obtain rfl : t = x := by simpa [ht] using hx
  have hqe : q.engines[c.engine]? = some e := heng.trans he
  have hsame := execWord_sameSurroundings _ _ t' ht'
  exact ⟨t', (step_presented hport hqe).trans ht', hsame.cfg.trans hcfg, hsame.port, hlike.eng ▸ hsame.engines hqe,
    hlike.shared, hresp⟩

/-- Two commands on different engines, one after the other, each have the effect that they have alone. -/
theorem State.LeavesAlone.step_step {d : Command} {x y : State} {h m : Nat} (hd : decode d.word ≠ .ok .tblinit)
    (hne : c.engine ≠ d.engine) (hx : s.LeavesAlone c x) (hy : s.LeavesAlone d y) (hcount : x.shared = s.shared.counted h m)
    (rest : List PortEvent) :
    ∃ t t', Machine.step { s with port := .command c :: .command d :: rest } = .next t ∧ Machine.step t = .next t' ∧
      t'.cfg = s.cfg ∧ t'.port = rest ∧ t'.engines = (s.engines.set c.engine x.eng).set d.engine y.eng ∧
      t'.shared = y.shared.counted h m ∧ ((∀ n, decode c.word ≠ .ok (.rdcsr n)) → t.resp = x.resp) ∧
      ((∀ n, decode d.word ≠ .ok (.rdcsr n)) → t'.resp = y.resp) := by
  obtain ⟨t, ht, hcfg, hport, hengines, hshared, hresp⟩ :=
    hx.step hc (q := { s with port := .command c :: .command d :: rest }) rfl rfl rfl (Shared.counted_zero _).symm
  have hother : t.engines[d.engine]? = s.engines[d.engine]? := by
    rw [hengines]
    exact List.getElem?_set_ne hne
  rw [Shared.counted_zero, hcount] at hshared
  obtain ⟨t', ht', hcfg', hport', hengines', hshared', hresp'⟩ := hy.step hd hport hcfg hother hshared
  exact ⟨t, t', ht, ht', hcfg', hport', hengines'.trans (congrArg (·.set d.engine y.eng) hengines), hshared', hresp, hresp'⟩

end

/-- Settles O58: each command has the effect that it has alone, in either order; setting two places of a list and counting commute. -/
theorem commandsOnTwoEnginesCommute : Obligations.CommandsOnTwoEnginesCommute := by
  intro s c d rest hne hclt hdlt hc hd
  obtain ⟨x, h, m, hx, hxcount⟩ := State.exists_leavesAlone hc hclt
  obtain ⟨y, h', m', hy, hycount⟩ := State.exists_leavesAlone hd hdlt
  obtain ⟨t, t', ht, ht', htcfg, htport, htengines, htshared, htresp, htresp'⟩ := hx.step_step hc hd hne hy hxcount rest
  obtain ⟨u, u', hu, hu', hucfg, huport, huengines, hushared, huresp, huresp'⟩ :=
    hy.step_step hd hc hne.symm hx hycount rest
  have hengines : t'.engines = u'.engines := by rw [htengines, huengines, List.set_comm _ _ hne]
  have hshared : t'.shared = u'.shared := by rw [htshared, hushared, hxcount, hycount, Shared.counted_comm]
  exact ⟨t, t', u, u', ht, ht', hu, hu', hengines, hshared, htcfg.trans hucfg.symm, htport.trans huport.symm,
    fun hn => (htresp hn).trans (huresp' hn).symm, fun hn => (htresp' hn).trans (huresp hn).symm⟩

end Sys2Proof.Machine
end

section
/-! PROOF. The reset event (70_reset_and_hazards.md R220) puts `Engine.reset` in the place of every engine. -/

namespace Sys2Proof.Machine

theorem step_reset {s : State} {rest : List PortEvent} (hport : s.port = .reset :: rest) :
    step s = .next (s.systemReset rest) := by
  rw [step, takeEvent, hport]

@[simp] theorem State.systemReset_engines (s : State) (rest : List PortEvent) :
    (s.systemReset rest).engines = s.engines.map fun _ => Engine.reset := by
  simp [State.engines]

theorem State.eq_reset_of_mem_systemReset_engines {s : State} {rest : List PortEvent} {e : Engine}
    (he : e ∈ (s.systemReset rest).engines) : e = Engine.reset := by
  rw [State.systemReset_engines] at he
  obtain ⟨-, -, rfl⟩ := List.mem_map.1 he
  rfl

theorem State.systemReset_engines_length (s : State) (rest : List PortEvent) :
    (s.systemReset rest).engines.length = s.engines.length := by
  rw [State.systemReset_engines, List.length_map]

/-- The system after reset has an engine, and it is `Engine.reset`. -/
theorem Engine.reset_mem_reset_engines : Engine.reset ∈ State.reset.engines :=
  List.mem_append_right _ List.mem_cons_self

/-- Settles O12: every engine becomes `Engine.reset`, whose values O13 gives. -/
theorem resetEventResetsTheSystem : Obligations.ResetEventResetsTheSystem := by
  intro s rest hport
  refine ⟨s.systemReset rest, step_reset hport, s.systemReset_engines_length rest, fun e he => ?_,
    rfl, rfl, rfl, rfl, rfl, rfl⟩
  rw [State.eq_reset_of_mem_systemReset_engines he]
  exact resetValues.1 _ Engine.reset_mem_reset_engines

end Sys2Proof.Machine
end
